-- ==== Sys2Proof/Word.lean ====
section
/-! DEFINITION. The two word types of the machine (00_scope.md R6, R7): a byte and a 16-bit word. Their `+`, `-`, `&&&` are
the modular and bitwise operations of R7. -/

namespace Sys2Proof

/-- A byte: `DATA_WIDTH` = 8 bits (R6). -/
abbrev Byte := BitVec 8

/-- A word: `ADDR_WIDTH` = 16 bits, the width of `PC` and of a bus address (R6). -/
abbrev Word := BitVec 16

end Sys2Proof
end

