-- ==== Sys2Proof/Config.lean ====
section
/-! DEFINITION. Implementation parameters (00_scope.md R6), and the interface to the Video Register Surface: the events the
core emits and the answers it does not determine (20_memory.md R64). -/

namespace Sys2Proof

/-- `RAM_SIZE` (R6): physical work RAM, in bytes. -/
def Config.ramSize : Nat := 2048

/-- `PRG_BANK_SIZE` (R6). -/
def Config.prgBankSize : Nat := 16384

/-- `CHR_BANK_SIZE` (R6). -/
def Config.chrBankSize : Nat := 8192

/-- `CHR_RAM_SIZE` (R6, D23): the writable graphics buffer when `CHR_COUNT` = 0. -/
def Config.chrRamSize : Nat := 8192

/-- `RESET_VECTOR` (R6). -/
def Config.resetVector : Word := 0xFFFC

/-- `P_POWERON` (R6, D8): bits 5 and 2 are set, as the source requires. The number is the spec's own choice (log 7). -/
def Config.pPowerOn : Byte := 0x34

/-- `SP_POWERON` (R6, D8). The number is the spec's own choice (log 7). -/
def Config.spPowerOn : Byte := 0xFD

/-- `STACK_BASE` (R6, R26, D12). No implemented instruction uses it. -/
def Config.stackBase : Word := 0x0100

/-- A call the core makes to the collaborator, with its arguments (20_memory.md R54, R64). -/
inductive Event where
  /-- `VidRead(i)`: slot `i` is read. -/
  | vidRead (slot : BitVec 3)
  /-- `VidWrite(i, v)`: `v` is written to slot `i`. -/
  | vidWrite (slot : BitVec 3) (v : Byte)
  /-- `OamDmaTrigger(v)`: `v` is written to 0x4014 (R54). -/
  | oamDmaTrigger (v : Byte)
  deriving DecidableEq, Repr

/-- FREE VALUE (log 5, U10). The byte the Video Register Surface answers: the `n`-th free answer, after the events `trace`,
for slot `slot`. "A model takes each VidRead answer from an oracle (any byte, possibly different on every call, possibly
depending on every earlier event)" (R64). It has no body: nothing can be proved about its value. -/
opaque Config.vidAnswer (n : Nat) (trace : List Event) (slot : BitVec 3) : Byte

end Sys2Proof
end

