-- ==== Sys2Proof/Syntax.lean ====
section
/-! DEFINITION. The syntax of RES CORE: operations and addressing modes (30_encoding.md R106, R108) and the instructions, one
constructor per row of the opcode table, each carrying its operand (an immediate or zero-page byte `nn`, a 16-bit address
`nnnn`, a signed branch offset `off`). -/

namespace Sys2Proof

/-- The twelve operations (30_encoding.md R108). -/
inductive Op where
  | lda | ldx | ldy | sta | stx | sty | and | cmp | beq | txs | cld | sei
  deriving DecidableEq, Repr

/-- The twelve addressing modes (30_encoding.md R106); no operation has an effect in mode `acc` (R108). -/
inductive Mode where
  | imp | acc | imm | zp | zpx | zpy | abs | abx | aby | izx | izy | rel
  deriving DecidableEq, Repr

/-- The 51 implemented instructions (30_encoding.md R108). -/
inductive Instr where
  /-- `LDA #$nn`: (LDA, IMM), opcode 0xA9, R141. -/
  | ldaImm (nn : Byte)
  /-- `LDA $nn`: (LDA, ZP), opcode 0xA5, R142. -/
  | ldaZp (nn : Byte)
  /-- `LDA $nn,X`: (LDA, ZPX), opcode 0xB5, R143. -/
  | ldaZpx (nn : Byte)
  /-- `LDA $nnnn`: (LDA, ABS), opcode 0xAD, R144. -/
  | ldaAbs (nnnn : Word)
  /-- `LDA $nnnn,X`: (LDA, ABX), opcode 0xBD, R145. -/
  | ldaAbx (nnnn : Word)
  /-- `LDA $nnnn,Y`: (LDA, ABY), opcode 0xB9, R146. -/
  | ldaAby (nnnn : Word)
  /-- `LDA ($nn,X)`: (LDA, IZX), opcode 0xA1, R147. -/
  | ldaIzx (nn : Byte)
  /-- `LDA ($nn),Y`: (LDA, IZY), opcode 0xB1, R148. -/
  | ldaIzy (nn : Byte)
  /-- `LDX #$nn`: (LDX, IMM), opcode 0xA2, R151. -/
  | ldxImm (nn : Byte)
  /-- `LDX $nn`: (LDX, ZP), opcode 0xA6, R152. -/
  | ldxZp (nn : Byte)
  /-- `LDX $nn,Y`: (LDX, ZPY), opcode 0xB6, R153. -/
  | ldxZpy (nn : Byte)
  /-- `LDX $nnnn`: (LDX, ABS), opcode 0xAE, R154. -/
  | ldxAbs (nnnn : Word)
  /-- `LDX $nnnn,Y`: (LDX, ABY), opcode 0xBE, R155. -/
  | ldxAby (nnnn : Word)
  /-- `LDY #$nn`: (LDY, IMM), opcode 0xA0, R161. -/
  | ldyImm (nn : Byte)
  /-- `LDY $nn`: (LDY, ZP), opcode 0xA4, R162. -/
  | ldyZp (nn : Byte)
  /-- `LDY $nn,X`: (LDY, ZPX), opcode 0xB4, R163. -/
  | ldyZpx (nn : Byte)
  /-- `LDY $nnnn`: (LDY, ABS), opcode 0xAC, R164. -/
  | ldyAbs (nnnn : Word)
  /-- `LDY $nnnn,X`: (LDY, ABX), opcode 0xBC, R165. -/
  | ldyAbx (nnnn : Word)
  /-- `STA $nn`: (STA, ZP), opcode 0x85, R171. -/
  | staZp (nn : Byte)
  /-- `STA $nn,X`: (STA, ZPX), opcode 0x95, R172. -/
  | staZpx (nn : Byte)
  /-- `STA $nnnn`: (STA, ABS), opcode 0x8D, R173. -/
  | staAbs (nnnn : Word)
  /-- `STA $nnnn,X`: (STA, ABX), opcode 0x9D, R174. -/
  | staAbx (nnnn : Word)
  /-- `STA $nnnn,Y`: (STA, ABY), opcode 0x99, R175. -/
  | staAby (nnnn : Word)
  /-- `STA ($nn,X)`: (STA, IZX), opcode 0x81, R176. -/
  | staIzx (nn : Byte)
  /-- `STA ($nn),Y`: (STA, IZY), opcode 0x91, R177. -/
  | staIzy (nn : Byte)
  /-- `STX $nn`: (STX, ZP), opcode 0x86, R181. -/
  | stxZp (nn : Byte)
  /-- `STX $nn,Y`: (STX, ZPY), opcode 0x96, R182. -/
  | stxZpy (nn : Byte)
  /-- `STX $nnnn`: (STX, ABS), opcode 0x8E, R183. -/
  | stxAbs (nnnn : Word)
  /-- `STY $nn`: (STY, ZP), opcode 0x84, R186. -/
  | styZp (nn : Byte)
  /-- `STY $nn,X`: (STY, ZPX), opcode 0x94, R187. -/
  | styZpx (nn : Byte)
  /-- `STY $nnnn`: (STY, ABS), opcode 0x8C, R188. -/
  | styAbs (nnnn : Word)
  /-- `AND #$nn`: (AND, IMM), opcode 0x29, R191. -/
  | andImm (nn : Byte)
  /-- `AND $nn`: (AND, ZP), opcode 0x25, R192. -/
  | andZp (nn : Byte)
  /-- `AND $nn,X`: (AND, ZPX), opcode 0x35, R193. -/
  | andZpx (nn : Byte)
  /-- `AND $nnnn`: (AND, ABS), opcode 0x2D, R194. -/
  | andAbs (nnnn : Word)
  /-- `AND $nnnn,X`: (AND, ABX), opcode 0x3D, R195. -/
  | andAbx (nnnn : Word)
  /-- `AND $nnnn,Y`: (AND, ABY), opcode 0x39, R196. -/
  | andAby (nnnn : Word)
  /-- `AND ($nn,X)`: (AND, IZX), opcode 0x21, R197. -/
  | andIzx (nn : Byte)
  /-- `AND ($nn),Y`: (AND, IZY), opcode 0x31, R198. -/
  | andIzy (nn : Byte)
  /-- `CMP #$nn`: (CMP, IMM), opcode 0xC9, R201. -/
  | cmpImm (nn : Byte)
  /-- `CMP $nn`: (CMP, ZP), opcode 0xC5, R202. -/
  | cmpZp (nn : Byte)
  /-- `CMP $nn,X`: (CMP, ZPX), opcode 0xD5, R203. -/
  | cmpZpx (nn : Byte)
  /-- `CMP $nnnn`: (CMP, ABS), opcode 0xCD, R204. -/
  | cmpAbs (nnnn : Word)
  /-- `CMP $nnnn,X`: (CMP, ABX), opcode 0xDD, R205. -/
  | cmpAbx (nnnn : Word)
  /-- `CMP $nnnn,Y`: (CMP, ABY), opcode 0xD9, R206. -/
  | cmpAby (nnnn : Word)
  /-- `CMP ($nn,X)`: (CMP, IZX), opcode 0xC1, R207. -/
  | cmpIzx (nn : Byte)
  /-- `CMP ($nn),Y`: (CMP, IZY), opcode 0xD1, R208. -/
  | cmpIzy (nn : Byte)
  /-- `BEQ label`: (BEQ, REL), opcode 0xF0, R210. -/
  | beq (off : Byte)
  /-- `TXS`: (TXS, IMP), opcode 0x9A, R220. -/
  | txs
  /-- `CLD`: (CLD, IMP), opcode 0xD8, R221. -/
  | cld
  /-- `SEI`: (SEI, IMP), opcode 0x78, R222. -/
  | sei
  deriving DecidableEq, Repr

/-- The operation of an instruction (30_encoding.md R108, the row). -/
def Instr.op : Instr → Op
  | .ldaImm _ | .ldaZp _ | .ldaZpx _ | .ldaAbs _ | .ldaAbx _ | .ldaAby _ | .ldaIzx _ | .ldaIzy _ => .lda
  | .ldxImm _ | .ldxZp _ | .ldxZpy _ | .ldxAbs _ | .ldxAby _ => .ldx
  | .ldyImm _ | .ldyZp _ | .ldyZpx _ | .ldyAbs _ | .ldyAbx _ => .ldy
  | .staZp _ | .staZpx _ | .staAbs _ | .staAbx _ | .staAby _ | .staIzx _ | .staIzy _ => .sta
  | .stxZp _ | .stxZpy _ | .stxAbs _ => .stx
  | .styZp _ | .styZpx _ | .styAbs _ => .sty
  | .andImm _ | .andZp _ | .andZpx _ | .andAbs _ | .andAbx _ | .andAby _ | .andIzx _ | .andIzy _ => .and
  | .cmpImm _ | .cmpZp _ | .cmpZpx _ | .cmpAbs _ | .cmpAbx _ | .cmpAby _ | .cmpIzx _ | .cmpIzy _ => .cmp
  | .beq _ => .beq
  | .txs => .txs
  | .cld => .cld
  | .sei => .sei

/-- The addressing mode of an instruction (30_encoding.md R108, the column). -/
def Instr.mode : Instr → Mode
  | .ldaImm _ | .ldxImm _ | .ldyImm _ | .andImm _ | .cmpImm _ => .imm
  | .ldaZp _ | .ldxZp _ | .ldyZp _ | .staZp _ | .stxZp _ | .styZp _ | .andZp _ | .cmpZp _ => .zp
  | .ldaZpx _ | .ldyZpx _ | .staZpx _ | .styZpx _ | .andZpx _ | .cmpZpx _ => .zpx
  | .ldxZpy _ | .stxZpy _ => .zpy
  | .ldaAbs _ | .ldxAbs _ | .ldyAbs _ | .staAbs _ | .stxAbs _ | .styAbs _ | .andAbs _ | .cmpAbs _ => .abs
  | .ldaAbx _ | .ldyAbx _ | .staAbx _ | .andAbx _ | .cmpAbx _ => .abx
  | .ldaAby _ | .ldxAby _ | .staAby _ | .andAby _ | .cmpAby _ => .aby
  | .ldaIzx _ | .staIzx _ | .andIzx _ | .cmpIzx _ => .izx
  | .ldaIzy _ | .staIzy _ | .andIzy _ | .cmpIzy _ => .izy
  | .beq _ => .rel
  | .txs | .cld | .sei => .imp

end Sys2Proof
end

