-- ==== Sys2Proof/Decode.lean ====
section
/-! DEFINITION. The Instruction Decoder and the dispatch on (operation, mode) as keyed lookups (30_encoding.md R102 to R109, R126),
the decoder of a byte sequence, and the encoder written from the opcode table. Every number here is the spec's (log 8). -/

namespace Sys2Proof

/-- `hi ∥ lo` = `hi*256 + lo` (00_scope.md R7); operands and pointers are little-endian (20_memory.md R60). -/
def wordOfBytes (lo hi : Byte) : Word := BitVec.ofNat 16 (hi.toNat * 256 + lo.toNat)

/-- The low byte of a word. -/
def lowByte (w : Word) : Byte := BitVec.ofNat 8 w.toNat

/-- The high byte of a word. -/
def highByte (w : Word) : Byte := BitVec.ofNat 8 (w.toNat / 256)

/-- `EXACT` (30_encoding.md R103): operations whose opcode does not follow the class layout. -/
def exactTable : List (Byte × Op) := [(0x78, .sei), (0x9A, .txs), (0xD8, .cld), (0xF0, .beq)]

/-- `OP_MASK` (00_scope.md R6, D4). -/
def opMask : Byte := 0xE3

/-- `MASKED`, keyed by `opcode & OP_MASK` (30_encoding.md R104). -/
def maskedTable : List (Byte × Op) :=
  [(0x21, .and), (0x80, .sty), (0x81, .sta), (0x82, .stx), (0xA0, .ldy), (0xA1, .lda), (0xA2, .ldx), (0xC1, .cmp)]

/-- `MODE_MASK`, "the low 5 bits" (00_scope.md R6). -/
def modeMask : Byte := 0x1F

/-- `MODE`, keyed by `opcode & MODE_MASK` (30_encoding.md R106). -/
def modeTable : List (Byte × Mode) :=
  [(0x00, .imm), (0x01, .izx), (0x02, .imm), (0x04, .zp), (0x05, .zp), (0x06, .zp), (0x08, .imp), (0x09, .imm)] ++
  [(0x0A, .acc), (0x0C, .abs), (0x0D, .abs), (0x0E, .abs), (0x10, .rel), (0x11, .izy), (0x14, .zpx), (0x15, .zpx)] ++
  [(0x16, .zpy), (0x18, .imp), (0x19, .aby), (0x1A, .imp), (0x1C, .abx), (0x1D, .abx), (0x1E, .aby)]

/-- `BASE_LENGTH` (30_encoding.md R107, D6). -/
def baseLength (_op : Op) : Int := 2

/-- `MODE_DELTA` (30_encoding.md R107). -/
def modeDelta : Mode → Int
  | .imp | .acc => -1
  | .imm | .zp | .zpx | .zpy | .izx | .izy | .rel => 0
  | .abs | .abx | .aby => 1

/-- The total byte length of an instruction (30_encoding.md R107). -/
def instrLength (op : Op) (mode : Mode) : Nat := (baseLength op + modeDelta mode).toNat

/-- Stages (a) and (b) of the operation lookup (30_encoding.md R103, R104); none is the second miss of R105. -/
def decodeOp (b : Byte) : Option Op :=
  match exactTable.lookup b with
  | some op => some op
  | none => maskedTable.lookup (b &&& opMask)

/-- `decode(b)`: operation, mode and length of an opcode byte (30_encoding.md R102); none is `IllegalOpcode` (R105). -/
def decodeOpcode (b : Byte) : Option (Op × Mode × Nat) :=
  match decodeOp b with
  | none => none
  | some op =>
    match modeTable.lookup (b &&& modeMask) with
    | none => none
    | some mode => some (op, mode, instrLength op mode)

/-- The three instruction formats (30_encoding.md R100), with the instruction their operand bytes make. -/
inductive Form where
  /-- Format F1: no operand byte. -/
  | f1 (i : Instr)
  /-- Format F2: one operand byte. -/
  | f2 (make : Byte → Instr)
  /-- Format F3: two operand bytes, low byte first. -/
  | f3 (make : Word → Instr)

/-- The dispatch on (operation, mode): the form of each implemented pair; none is a pair with no effect
(30_encoding.md R108, R109). -/
def dispatch (op : Op) (mode : Mode) : Option Form :=
  match op with
  | .lda =>
    match mode with
    | .imm => some (.f2 .ldaImm)
    | .zp => some (.f2 .ldaZp)
    | .zpx => some (.f2 .ldaZpx)
    | .abs => some (.f3 .ldaAbs)
    | .abx => some (.f3 .ldaAbx)
    | .aby => some (.f3 .ldaAby)
    | .izx => some (.f2 .ldaIzx)
    | .izy => some (.f2 .ldaIzy)
    | _ => none
  | .ldx =>
    match mode with
    | .imm => some (.f2 .ldxImm)
    | .zp => some (.f2 .ldxZp)
    | .zpy => some (.f2 .ldxZpy)
    | .abs => some (.f3 .ldxAbs)
    | .aby => some (.f3 .ldxAby)
    | _ => none
  | .ldy =>
    match mode with
    | .imm => some (.f2 .ldyImm)
    | .zp => some (.f2 .ldyZp)
    | .zpx => some (.f2 .ldyZpx)
    | .abs => some (.f3 .ldyAbs)
    | .abx => some (.f3 .ldyAbx)
    | _ => none
  | .sta =>
    match mode with
    | .zp => some (.f2 .staZp)
    | .zpx => some (.f2 .staZpx)
    | .abs => some (.f3 .staAbs)
    | .abx => some (.f3 .staAbx)
    | .aby => some (.f3 .staAby)
    | .izx => some (.f2 .staIzx)
    | .izy => some (.f2 .staIzy)
    | _ => none
  | .stx =>
    match mode with
    | .zp => some (.f2 .stxZp)
    | .zpy => some (.f2 .stxZpy)
    | .abs => some (.f3 .stxAbs)
    | _ => none
  | .sty =>
    match mode with
    | .zp => some (.f2 .styZp)
    | .zpx => some (.f2 .styZpx)
    | .abs => some (.f3 .styAbs)
    | _ => none
  | .and =>
    match mode with
    | .imm => some (.f2 .andImm)
    | .zp => some (.f2 .andZp)
    | .zpx => some (.f2 .andZpx)
    | .abs => some (.f3 .andAbs)
    | .abx => some (.f3 .andAbx)
    | .aby => some (.f3 .andAby)
    | .izx => some (.f2 .andIzx)
    | .izy => some (.f2 .andIzy)
    | _ => none
  | .cmp =>
    match mode with
    | .imm => some (.f2 .cmpImm)
    | .zp => some (.f2 .cmpZp)
    | .zpx => some (.f2 .cmpZpx)
    | .abs => some (.f3 .cmpAbs)
    | .abx => some (.f3 .cmpAbx)
    | .aby => some (.f3 .cmpAby)
    | .izx => some (.f2 .cmpIzx)
    | .izy => some (.f2 .cmpIzy)
    | _ => none
  | .beq =>
    match mode with
    | .rel => some (.f2 .beq)
    | _ => none
  | .txs =>
    match mode with
    | .imp => some (.f1 .txs)
    | _ => none
  | .cld =>
    match mode with
    | .imp => some (.f1 .cld)
    | _ => none
  | .sei =>
    match mode with
    | .imp => some (.f1 .sei)
    | _ => none

/-- What one opcode byte is: the outcome map of 30_encoding.md R109. -/
inductive OpcodeClass where
  /-- `IllegalOpcode`: an operation or mode lookup misses. -/
  | illegal
  /-- `UnimplementedInstruction`: a recognised pair with no effect. -/
  | unimplemented (op : Op) (mode : Mode)
  /-- An implemented instruction. -/
  | implemented (form : Form)

/-- Decode and dispatch of an opcode byte (30_encoding.md R102, R109). -/
def classifyOpcode (b : Byte) : OpcodeClass :=
  match decodeOpcode b with
  | none => .illegal
  | some (op, mode, _) =>
    match dispatch op mode with
    | none => .unimplemented op mode
    | some form => .implemented form

/-- The answer of the decoder on a byte sequence. -/
inductive Decoded where
  /-- An instruction, and the bytes after it. -/
  | instr (i : Instr) (rest : List Byte)
  /-- Rejected: the first byte is an illegal opcode (30_encoding.md R105). -/
  | illegalOpcode (opcode : Byte)
  /-- Rejected: the first byte decodes to a pair with no effect (30_encoding.md R109). -/
  | unimplemented (op : Op) (mode : Mode) (opcode : Byte)
  /-- Rejected: the sequence ends before the instruction does. -/
  | truncated
  deriving DecidableEq, Repr

/-- The decoder, total on any bytes. -/
def decode : List Byte → Decoded
  | [] => .truncated
  | b :: rest =>
    match classifyOpcode b with
    | .illegal => .illegalOpcode b
    | .unimplemented op mode => .unimplemented op mode b
    | .implemented (.f1 i) => .instr i rest
    | .implemented (.f2 make) =>
      match rest with
      | b1 :: rest' => .instr (make b1) rest'
      | [] => .truncated
    | .implemented (.f3 make) =>
      match rest with
      | b1 :: b2 :: rest' => .instr (make (wordOfBytes b1 b2)) rest'
      | _ => .truncated

/-- The first three bytes of an instruction whose bits are `w` (bit 0 the least significant bit of the first byte), every bit
from `nbits` on being 0. Three bytes is the longest instruction (30_encoding.md R123). -/
def tableBytes (nbits w : Nat) : List Byte :=
  let v := w % 2 ^ nbits
  [BitVec.ofNat 8 v, BitVec.ofNat 8 (v / 256), BitVec.ofNat 8 (v / 65536)]

/-- The instruction the decoder reads from an instruction whose bits are `w`, numbered as spec/opcode_table.json numbers them. -/
def decodeTableWord (nbits w : Nat) : Option Instr :=
  match decode (tableBytes nbits w) with
  | .instr i _ => some i
  | _ => none

/-- The opcode byte of an instruction (the opcode table; 30_encoding.md R108). -/
def Instr.opcode : Instr → Byte
  | .ldaImm _ => 0xA9
  | .ldaZp _ => 0xA5
  | .ldaZpx _ => 0xB5
  | .ldaAbs _ => 0xAD
  | .ldaAbx _ => 0xBD
  | .ldaAby _ => 0xB9
  | .ldaIzx _ => 0xA1
  | .ldaIzy _ => 0xB1
  | .ldxImm _ => 0xA2
  | .ldxZp _ => 0xA6
  | .ldxZpy _ => 0xB6
  | .ldxAbs _ => 0xAE
  | .ldxAby _ => 0xBE
  | .ldyImm _ => 0xA0
  | .ldyZp _ => 0xA4
  | .ldyZpx _ => 0xB4
  | .ldyAbs _ => 0xAC
  | .ldyAbx _ => 0xBC
  | .staZp _ => 0x85
  | .staZpx _ => 0x95
  | .staAbs _ => 0x8D
  | .staAbx _ => 0x9D
  | .staAby _ => 0x99
  | .staIzx _ => 0x81
  | .staIzy _ => 0x91
  | .stxZp _ => 0x86
  | .stxZpy _ => 0x96
  | .stxAbs _ => 0x8E
  | .styZp _ => 0x84
  | .styZpx _ => 0x94
  | .styAbs _ => 0x8C
  | .andImm _ => 0x29
  | .andZp _ => 0x25
  | .andZpx _ => 0x35
  | .andAbs _ => 0x2D
  | .andAbx _ => 0x3D
  | .andAby _ => 0x39
  | .andIzx _ => 0x21
  | .andIzy _ => 0x31
  | .cmpImm _ => 0xC9
  | .cmpZp _ => 0xC5
  | .cmpZpx _ => 0xD5
  | .cmpAbs _ => 0xCD
  | .cmpAbx _ => 0xDD
  | .cmpAby _ => 0xD9
  | .cmpIzx _ => 0xC1
  | .cmpIzy _ => 0xD1
  | .beq _ => 0xF0
  | .txs => 0x9A
  | .cld => 0xD8
  | .sei => 0x78

/-- The operand bytes of an instruction, in the order they follow the opcode (30_encoding.md R100). -/
def Instr.operandBytes : Instr → List Byte
  | .txs | .cld | .sei => []
  | .ldaImm b | .ldaZp b | .ldaZpx b | .ldaIzx b | .ldaIzy b => [b]
  | .ldxImm b | .ldxZp b | .ldxZpy b => [b]
  | .ldyImm b | .ldyZp b | .ldyZpx b => [b]
  | .staZp b | .staZpx b | .staIzx b | .staIzy b => [b]
  | .stxZp b | .stxZpy b => [b]
  | .styZp b | .styZpx b => [b]
  | .andImm b | .andZp b | .andZpx b | .andIzx b | .andIzy b => [b]
  | .cmpImm b | .cmpZp b | .cmpZpx b | .cmpIzx b | .cmpIzy b => [b]
  | .beq b => [b]
  | .ldaAbs w | .ldaAbx w | .ldaAby w => [lowByte w, highByte w]
  | .ldxAbs w | .ldxAby w => [lowByte w, highByte w]
  | .ldyAbs w | .ldyAbx w => [lowByte w, highByte w]
  | .staAbs w | .staAbx w | .staAby w => [lowByte w, highByte w]
  | .stxAbs w => [lowByte w, highByte w]
  | .styAbs w => [lowByte w, highByte w]
  | .andAbs w | .andAbx w | .andAby w => [lowByte w, highByte w]
  | .cmpAbs w | .cmpAbx w | .cmpAby w => [lowByte w, highByte w]

/-- The encoder: the bytes of an instruction (30_encoding.md R100). -/
def encode (i : Instr) : List Byte := i.opcode :: i.operandBytes

end Sys2Proof
end

