-- ==== Sys2Proof/Machine/Memory.lean ====
section
/-! DEFINITION. A byte store: a sparse list of (index, byte) cells in one canonical form. Work RAM, `CHR_RAM`, program storage
and graphics storage are four such stores (20_memory.md R84). -/

namespace Sys2Proof.Machine

/-- A byte store: its cells, indices strictly rising, none equal to `Memory.unlisted` (`Memory.wf`). -/
abbrev Memory := List Host.Cell

/-- What an index that is not listed reads as. DESIGN CHOICE (log 3): for work RAM and `CHR_RAM` the spec gives no power-on
value (U2). For program and graphics storage it chooses nothing: the loader lists every byte that differs (log 20). -/
def Memory.unlisted : Byte := 0

/-- The byte at index `k`. -/
def Memory.read : Memory → Nat → Byte
  | [], _ => Memory.unlisted
  | (j, w) :: rest, k => if k = j then w else Memory.read rest k

/-- Put `v` at index `k`, keeping the canonical form: `unlisted` removes the entry. -/
def Memory.write : Memory → Nat → Byte → Memory
  | [], k, v => if v = Memory.unlisted then [] else [(k, v)]
  | (j, w) :: rest, k, v =>
    if k < j then (if v = Memory.unlisted then (j, w) :: rest else (k, v) :: (j, w) :: rest)
    else if k = j then (if v = Memory.unlisted then rest else (k, v) :: rest)
    else (j, w) :: Memory.write rest k v

/-- Every listed index is at least `lo`, the indices rise strictly, and no entry equals `unlisted`. -/
def Memory.risesFrom : Nat → Memory → Bool
  | _, [] => true
  | lo, (j, w) :: rest => decide (lo ≤ j) && decide (w ≠ Memory.unlisted) && Memory.risesFrom (j + 1) rest

/-- The canonical form, in which equal stores are equal lists. -/
def Memory.wf (m : Memory) : Bool := Memory.risesFrom 0 m

/-- Every listed index is below `size`. -/
def Memory.within (size : Nat) (m : Memory) : Bool := m.all fun c => decide (c.1 < size)

/-- The store whose bytes from index `base` on are `bytes`. -/
def Memory.ofBytesFrom : Nat → List Byte → Memory
  | _, [] => []
  | base, b :: rest =>
    if b = Memory.unlisted then Memory.ofBytesFrom (base + 1) rest else (base, b) :: Memory.ofBytesFrom (base + 1) rest

/-- The store that holds `bytes` at indices 0, 1, 2, … -/
def Memory.ofBytes (bytes : List Byte) : Memory := Memory.ofBytesFrom 0 bytes

end Sys2Proof.Machine
end

