-- ==== Sys2Proof/Machine/Cartridge.lean ====
section
/-! DEFINITION. The Cartridge Image: its header, its two storages and the loader (20_memory.md R72 to R77, 10_state.md R39). -/

namespace Sys2Proof.Machine

/-- The 16-byte header, one field a byte, in the order of the layout of 20_memory.md R73. -/
structure Header where
  magic0 : Byte
  magic1 : Byte
  magic2 : Byte
  magic3 : Byte
  prgSize : Byte
  chrSize : Byte
  flagsLow : Byte
  flagsHigh : Byte
  byte8 : Byte
  aux0 : Byte
  aux1 : Byte
  byte11 : Byte
  byte12 : Byte
  byte13 : Byte
  byte14 : Byte
  byte15 : Byte
  deriving DecidableEq, Repr

/-- The Cartridge Image (10_state.md R39): configuration fixed at load. `prg` and `chr` are keyed by physical offset. -/
structure Cartridge where
  header : Header
  prg : Memory
  chr : Memory
  deriving DecidableEq, Repr

/-- The load-time faults (60_exceptions.md R231, R239). They occur before any machine state exists, so they are no fault of a
step: `Cartridge.load` and `BankSlots.construct` answer with them. Safe: after one there is no machine. -/
inductive LoadError where
  /-- Header magic mismatch; raised by `Cartridge.parse`. -/
  | badMagic
  /-- Fewer bytes than the header plus the declared storage; raised by `Cartridge.parse`. -/
  | truncatedImage
  /-- The mapper identifier is not in `SUPPORTED_MAPPERS`; raised by the construction of the Bank-Switch Unit. -/
  | unsupportedMapper (id : Byte)
  deriving DecidableEq, Repr

/-- `MAGIC` (00_scope.md R6, 20_memory.md R73): 0x4E 0x45 0x53 0x1A. -/
def Header.magicMatches (h : Header) : Bool :=
  h.magic0 == 0x4E && h.magic1 == 0x45 && h.magic2 == 0x53 && h.magic3 == 0x1A

/-- `PRG_COUNT` (20_memory.md R73, offset 4). -/
def Cartridge.prgCount (c : Cartridge) : Nat := c.header.prgSize.toNat

/-- `CHR_COUNT` (20_memory.md R73, offset 5). -/
def Cartridge.chrCount (c : Cartridge) : Nat := c.header.chrSize.toNat

/-- `MAPPER_ID` = `(flagsHighByte & 0xF0) | (flagsLowByte >> 4)` (20_memory.md R74). -/
def Header.mapperId (h : Header) : Byte := (h.flagsHigh &&& 0xF0) ||| (h.flagsLow >>> 4)

/-- `MAPPER_ID` of the image. -/
def Cartridge.mapperId (c : Cartridge) : Byte := c.header.mapperId

/-- Bytes of program storage: `PRG_COUNT * 16384` (20_memory.md R72). -/
def Cartridge.prgBytes (c : Cartridge) : Nat := c.prgCount * Config.prgBankSize

/-- Bytes of graphics storage: `CHR_COUNT * 8192` (20_memory.md R72). -/
def Cartridge.chrBytes (c : Cartridge) : Nat := c.chrCount * Config.chrBankSize

/-- `SUPPORTED_MAPPERS` (00_scope.md R6, D14). -/
def supportedMappers : List Byte := [0]

/-- Split a file into its header and what follows it; none when it is shorter than 16 bytes. -/
def Header.parse : List Byte → Option (Header × List Byte)
  | m0 :: m1 :: m2 :: m3 :: prg :: chr :: lo :: hi :: b8 :: x0 :: x1 :: b11 :: b12 :: b13 :: b14 :: b15 :: body =>
    some (⟨m0, m1, m2, m3, prg, chr, lo, hi, b8, x0, x1, b11, b12, b13, b14, b15⟩, body)
  | _ => none

/-- The first three checks of `load`, in the order of 20_memory.md R75, and the layout of R72: bytes after the two storages
are ignored. -/
def Cartridge.parse (bytes : List Byte) : Except LoadError Cartridge :=
  match Header.parse bytes with
  | none => .error .truncatedImage
  | some (h, body) =>
    if h.magicMatches then
      let prgBytes := h.prgSize.toNat * Config.prgBankSize
      let chrBytes := h.chrSize.toNat * Config.chrBankSize
      if body.length < prgBytes + chrBytes then .error .truncatedImage
      else .ok ⟨h, Memory.ofBytes (body.take prgBytes), Memory.ofBytes ((body.drop prgBytes).take chrBytes)⟩
    else .error .badMagic

/-- `load(bytes)` with all its checks in order (20_memory.md R75). -/
def Cartridge.load (bytes : List Byte) : Except LoadError Cartridge :=
  match Cartridge.parse bytes with
  | .error e => .error e
  | .ok c => if supportedMappers.contains c.mapperId then .ok c else .error (.unsupportedMapper c.mapperId)

/-- DESIGN CHOICE (log 4): the cartridge of `State.reset`, one program bank of zeros, no graphics storage, mapper 0. It holds
no program; a program comes in by `load` and `powerOn`. -/
def Cartridge.blank : Cartridge :=
  ⟨⟨0x4E, 0x45, 0x53, 0x1A, 1, 0, 0, 0, 0, 0, 0, 0, 0, 0, 0, 0⟩, [], []⟩

end Sys2Proof.Machine
end

