-- ==== Sys2Proof/Machine/Banks.lean ====
section
/-! DEFINITION. The Bank-Switch Unit: the selected-bank slots, address translation, and the strategy a switching mapper would
supply (20_memory.md R66 to R71, 10_state.md R38). -/

namespace Sys2Proof.Machine

/-- The selected bank of each logical window (10_state.md R38). -/
structure BankSlots where
  /-- `prg_lo_bank` -/
  prgLo : Nat
  /-- `prg_hi_bank` -/
  prgHi : Nat
  /-- `chr_bank` -/
  chr : Nat
  deriving DecidableEq, Repr

/-- `MAPPER_STRATEGY` (00_scope.md R6, 20_memory.md R70): the control-address predicate and control-write function of a
mapper. A parameter of the model (log 12), no part of State. -/
structure MapperStrategy where
  isControl : Word → Bool
  controlWrite : BankSlots → Word → Byte → BankSlots

/-- The no-switching mapper: no control address (20_memory.md R58, R69). -/
def MapperStrategy.noSwitch : MapperStrategy := ⟨fun _ => false, fun slots _ _ => slots⟩

/-- The strategy of a mapper identifier (20_memory.md R66, R69, R70). Mapper 0 is the only supported one (D14); a model that
wants a switching mapper adds its strategy here and its identifier to `supportedMappers`. -/
def mapperStrategy (id : Byte) : Option MapperStrategy :=
  if id = 0 then some .noSwitch else none

/-- The slots right after construction, mapper 0 (20_memory.md R69). -/
def BankSlots.initial (prgCount : Nat) : BankSlots := ⟨0, prgCount - 1, 0⟩

/-- Construction "from a mapper identifier and the two bank counts" (20_memory.md R66). -/
def BankSlots.construct (mapperId : Byte) (prgCount : Nat) : Except LoadError BankSlots :=
  if supportedMappers.contains mapperId then .ok (.initial prgCount) else .error (.unsupportedMapper mapperId)

/-- The invariant of 10_state.md R38: each selected index is below the bank count of its storage. -/
def BankSlots.inRange (slots : BankSlots) (prgCount chrCount : Nat) : Bool :=
  decide (slots.prgLo < prgCount) && decide (slots.prgHi < prgCount) && decide (slots.chr < max chrCount 1)

/-- `translate_program` (20_memory.md R67), for 0x8000 to 0xFFFF. -/
def translateProgram (slots : BankSlots) (addr : Word) : Nat :=
  let bank := if addr ≤ 0xBFFF then slots.prgLo else slots.prgHi
  bank * 16384 + (addr &&& 0x3FFF).toNat

/-- `translate_graphics` (20_memory.md R68). The bus never calls it. -/
def translateGraphics (slots : BankSlots) (addr : Word) : Nat :=
  slots.chr * 8192 + (addr &&& 0x1FFF).toNat

end Sys2Proof.Machine
end

