-- ==== Sys2Proof/Machine/Flags.lean ====
section
/-! DEFINITION. The status register `P` (10_state.md R27 to R36): its eight flags, its view as a byte, and the two flag
computations of the instruction set, `SetNZ` and the comparison. -/

namespace Sys2Proof.Machine

/-- `P`, "each bit an independently named flag" (10_state.md R27). No instruction reads or writes `P` as a byte (log 14). -/
structure Status where
  /-- `P.N`, negative, bit 7 (R28). -/
  n : Bool
  /-- `P.V`, overflow, bit 6 (R29). -/
  v : Bool
  /-- `P.U`, unused / always-one, bit 5 (R30). -/
  u : Bool
  /-- `P.B`, break, bit 4 (R31). -/
  b : Bool
  /-- `P.D`, decimal, bit 3 (R32). -/
  d : Bool
  /-- `P.I`, interrupt-disable, bit 2 (R33). -/
  i : Bool
  /-- `P.Z`, zero, bit 1 (R34). -/
  z : Bool
  /-- `P.C`, carry, bit 0 (R35). -/
  c : Bool
  deriving DecidableEq, Repr

/-- The flags a status byte spells, by the bit positions of 10_state.md R27. -/
def Status.ofByte (w : Byte) : Status :=
  ⟨w.getLsbD 7, w.getLsbD 6, w.getLsbD 5, w.getLsbD 4, w.getLsbD 3, w.getLsbD 2, w.getLsbD 1, w.getLsbD 0⟩

/-- `P` as the host that inspects it sees it, by the bit positions of 10_state.md R27. -/
def Status.toByte (p : Status) : Byte :=
  BitVec.ofBool p.n ++ BitVec.ofBool p.v ++ BitVec.ofBool p.u ++ BitVec.ofBool p.b ++
    BitVec.ofBool p.d ++ BitVec.ofBool p.i ++ BitVec.ofBool p.z ++ BitVec.ofBool p.c

/-- `P_POWERON` as flags (10_state.md R44). -/
def Status.powerOn : Status := Status.ofByte Config.pPowerOn

/-- `SetNZ(v)`: `P.N <- v[7]; P.Z <- (v = 0)` (00_scope.md R8; 10_state.md R28, R34). -/
def Status.setNZ (v : Byte) (p : Status) : Status := { p with n := v.getLsbD 7, z := decide (v = 0) }

/-- The flags of comparing `acc` with `m` (42_logic_compare.md R200): N from bit 7 of `acc -8 m`, Z from equality, C from
`acc >= m` unsigned. -/
def Status.compare (acc m : Byte) (p : Status) : Status :=
  { p with n := (acc - m).getLsbD 7, z := decide (acc = m), c := decide (m.toNat ≤ acc.toNat) }

end Sys2Proof.Machine
end

