-- ==== Sys2Proof/Machine/State.lean ====
section
/-! DEFINITION. The state of RES CORE as plain data (10_state.md R20), the reasons a step can stop, and the state after
reset. -/

namespace Sys2Proof.Machine

/-- The run-time faults (60_exceptions.md R231): the closed list, each with the info it carries. Every one is the spec's own and
ends the run (R230). Safe: the hardware stops there too. -/
inductive Fault where
  /-- Raised by the decoder in `step` when an operation or mode lookup misses; carries the opcode byte and the address it was
  fetched from (R232). -/
  | illegalOpcode (opcode : Byte) (addr : Word)
  /-- Raised by the dispatch in `step` for a decoded pair with no effect; carries the pair, the opcode byte and its address
  (R233). -/
  | unimplementedInstruction (op : Op) (mode : Mode) (opcode : Byte) (addr : Word)
  /-- Raised by a bus read of 0x4014 or of 0x4020 to 0x7FFF (R234). -/
  | unmappedAddress (addr : Word)
  /-- Raised by a bus write to 0x4020 to 0xFFFF that is not a mapper-control address (R235). -/
  | readOnlyViolation (addr : Word)
  /-- Raised by a bus read or write of 0x4000 to 0x4013 or 0x4015 to 0x401F (R236). -/
  | unimplementedRegion (addr : Word)
  /-- Raised by a mapper-control write that selects a bank at or above its count (R237); unreachable with mapper 0. -/
  | bankOutOfRange (addr : Word) (v : Byte)
  /-- Raised by the Cartridge Image for an offset outside its storage (R238); unreachable in a state that meets the
  invariant of 10_state.md R38. -/
  | internalBoundsError (offset : Nat)
  deriving DecidableEq, Repr

/-- Where the model gives no transition. -/
inductive Refusal where
  /-- Raised by an arm of `exec` whose instruction has no meaning yet; none is left. Safe. -/
  | notModelled (mnemonic : String)
  /-- Raised by `step` and `resetCall` on a machine whose fault latch is set (60_exceptions.md R243,
  70_reset_and_hazards.md R263). Safe: the spec gives such a machine no step. -/
  | faultLatched
  /-- Raised by `step` on a machine whose `reset()` has never run (70_reset_and_hazards.md R263, D10). Safe: the spec gives such
  a machine no step. -/
  | neverReset
  /-- Raised by `powerOn` for a cartridge with `PRG_COUNT` = 0, a refused configuration (20_memory.md R66, D29). Safe. -/
  | noProgramBank
  deriving DecidableEq, Repr

/-- The state of the machine (10_state.md R20), with the cartridge it runs (R39) and, last, the model's own record of the
collaborator (log 5, log 6) and of `reset()` (log 10). -/
structure State where
  /-- `A`, the accumulator (R21). -/
  a : Byte
  /-- `X`, index-X (R22). -/
  x : Byte
  /-- `Y`, index-Y (R23). -/
  y : Byte
  /-- `SP`, the stack pointer (R26). -/
  sp : Byte
  /-- `P`, the status register (R27). -/
  p : Status
  /-- `PC`, the program counter (R25). -/
  pc : Word
  /-- Work RAM, keyed 0 to 2047 (R37). -/
  ram : Memory
  /-- The selected-bank slots (R38). -/
  banks : BankSlots
  /-- `CHR_RAM`, keyed 0 to 8191, present only when `CHR_COUNT` = 0 (R40). -/
  chrRam : Option Memory
  /-- The loaded cartridge (R39), configuration no step changes. -/
  cart : Cartridge
  /-- The fault latch (R41). -/
  fault : Option Fault
  /-- The model's own: `reset()` has run at least once (70_reset_and_hazards.md R263, D10; log 10). -/
  resetDone : Bool
  /-- The model's own: the calls made to the collaborator, oldest first (20_memory.md R64; log 6). -/
  events : List Event
  /-- The model's own: answers the collaborator has settled on, next first (log 5). -/
  vidAnswers : List Byte
  /-- The model's own: the counter of the free answers (log 5). -/
  vidReads : Nat
  deriving DecidableEq, Repr

/-- The answer of an instruction and of a step. -/
abbrev Result := Host.Outcome State Fault Refusal

/-- The machine right after power-on and `reset()` with the blank cartridge (10_state.md R44, 70_reset_and_hazards.md R260).
`A`, `X`, `Y`, RAM and `CHR_RAM` are DESIGN CHOICE zeros (log 2, log 3); `SP` and `P` are the spec's constants (log 7); `PC` is
the word at 0xFFFC of the blank cartridge (log 4; `resetCall_reset` in Laws/Host.lean). -/
def State.reset : State where
  a := 0
  x := 0
  y := 0
  sp := Config.spPowerOn
  p := Status.powerOn
  pc := 0x0000
  ram := []
  banks := BankSlots.initial Cartridge.blank.prgCount
  chrRam := some []
  cart := Cartridge.blank
  fault := none
  resetDone := true
  events := []
  vidAnswers := []
  vidReads := 0

end Sys2Proof.Machine
end

