-- ==== Sys2Proof/Machine/Ops.lean ====
section
/-! DEFINITION. The named operations over registers and memory: the Memory Bus with its routing table (20_memory.md R50 to R65,
R84, R85), the collaborator's calls (R64), the bank-switch control write (R70, R71), the Cartridge Image's accessors (R76),
`Fetch8` (00_scope.md R8), and the fault latch (60_exceptions.md R230). The hardware takes no exception and returns from none:
a fault is the terminal outcome of the step and jumps nowhere (60_exceptions.md R242, R243). -/

namespace Sys2Proof.Machine

/-! ### Register writes -/

/-- `PC <- v`. -/
def State.setPc (s : State) (v : Word) : State := { s with pc := v }

/-- `P <- p`. -/
def State.setP (s : State) (p : Status) : State := { s with p := p }

/-- `SP <- v`. -/
def State.setSp (s : State) (v : Byte) : State := { s with sp := v }

/-- A raised fault sets the latch (60_exceptions.md R230, 10_state.md R41). -/
def State.latch (s : State) (f : Fault) : State := { s with fault := some f }

/-- The precondition of `step()` that fails, if one does: an empty latch, and a `reset()` that has run
(70_reset_and_hazards.md R263). -/
def State.stepRefusal (s : State) : Option Refusal :=
  match s.fault with
  | some _ => some .faultLatched
  | none => if s.resetDone then none else some .neverReset

/-- What `reset()` writes once the vector word is read: `PC`, and the mark that it has run (70_reset_and_hazards.md R261, R263). -/
def State.launch (s : State) (target : Word) : State := { s with pc := target, resetDone := true }

/-- The bus address the stack pointer names: `STACK_BASE + SP` (10_state.md R26). No implemented instruction uses it. -/
def State.stackAddress (s : State) : Word := Config.stackBase + s.sp.setWidth 16

/-! ### The collaborator (20_memory.md R64) -/

/-- The byte `VidRead(slot)` answers in this state: the next settled answer, or a free value when none is settled (log 5). -/
def State.vidAnswer (s : State) (slot : BitVec 3) : Byte :=
  match s.vidAnswers with
  | v :: _ => v
  | [] => Config.vidAnswer s.vidReads s.events slot

/-- What `VidRead(slot)` changes: the event is recorded and the answer is used up. No other state changes. -/
def State.afterVidRead (s : State) (slot : BitVec 3) : State :=
  { s with events := s.events ++ [.vidRead slot], vidAnswers := s.vidAnswers.tail, vidReads := s.vidReads + 1 }

/-- An event handed to the collaborator: `VidWrite` or `OamDmaTrigger`. -/
def State.emit (s : State) (e : Event) : State := { s with events := s.events ++ [e] }

/-! ### The Cartridge Image's bounds-checked accessors (20_memory.md R76) -/

/-- Program byte at an absolute offset. -/
def Cartridge.prgByte (c : Cartridge) (offset : Nat) : Except Fault Byte :=
  if offset < c.prgBytes then .ok (Memory.read c.prg offset) else .error (.internalBoundsError offset)

/-- Program word at an absolute offset, little-endian. The bus does not use it (C5). -/
def Cartridge.prgWord (c : Cartridge) (offset : Nat) : Except Fault Word :=
  match c.prgByte offset with
  | .error f => .error f
  | .ok lo =>
    match c.prgByte (offset + 1) with
    | .error f => .error f
    | .ok hi => .ok (wordOfBytes lo hi)

/-- Graphics byte at an absolute offset. -/
def Cartridge.chrByte (c : Cartridge) (offset : Nat) : Except Fault Byte :=
  if offset < c.chrBytes then .ok (Memory.read c.chr offset) else .error (.internalBoundsError offset)

/-- The graphics byte the video subsystem reaches at a logical address: in `CHR_RAM` when it is present, else in `CHR`
(20_memory.md R68). No CPU access reaches it. -/
def State.graphicsByte (s : State) (addr : Word) : Except Fault Byte :=
  match s.chrRam with
  | some m =>
    if translateGraphics s.banks addr < Config.chrRamSize then .ok (Memory.read m (translateGraphics s.banks addr))
    else .error (.internalBoundsError (translateGraphics s.banks addr))
  | none => s.cart.chrByte (translateGraphics s.banks addr)

/-! ### The Memory Bus -/

/-- The rows of the routing table (20_memory.md R85). -/
inductive Target where
  | ram (index : Nat)
  | vid (slot : BitVec 3)
  | oamDma
  | audioIo
  | testMode
  | cart
  deriving DecidableEq, Repr

/-- `Route(addr)`: the first matching row wins (20_memory.md R85). -/
def route (addr : Word) : Target :=
  if addr ≤ 0x1FFF then .ram (addr &&& 0x07FF).toNat
  else if addr ≤ 0x3FFF then .vid ((addr &&& 0x0007).setWidth 3)
  else if addr = 0x4014 then .oamDma
  else if addr ≤ 0x4017 then .audioIo
  else if addr ≤ 0x401F then .testMode
  else .cart

/-- A read of the cartridge window (20_memory.md R57). -/
def cartRead (addr : Word) (s : State) : Except Fault Byte :=
  if 0x8000 ≤ addr then s.cart.prgByte (translateProgram s.banks addr) else .error (.unmappedAddress addr)

/-- `ControlWrite(addr, v)` (20_memory.md R70): the strategy's new slots, rejected when one is out of range (R71). -/
def controlWrite (m : MapperStrategy) (addr : Word) (v : Byte) (s : State) : Except Fault State :=
  if (m.controlWrite s.banks addr v).inRange s.cart.prgCount s.cart.chrCount then
    .ok { s with banks := m.controlWrite s.banks addr v }
  else .error (.bankOutOfRange addr v)

/-- A write to the cartridge window under a mapper strategy (20_memory.md R58). -/
def cartWrite (m : MapperStrategy) (addr : Word) (v : Byte) (s : State) : Except Fault State :=
  if m.isControl addr then controlWrite m addr v s else .error (.readOnlyViolation addr)

/-- `MemRead(addr, 1)` (20_memory.md R50, R52 to R57): the byte and the state after the read, or a fault. -/
def busRead (addr : Word) (s : State) : Except Fault (Byte × State) :=
  match route addr with
  | .ram k => .ok (Memory.read s.ram k, s)
  | .vid slot => .ok (s.vidAnswer slot, s.afterVidRead slot)
  | .oamDma => .error (.unmappedAddress addr)
  | .audioIo => .error (.unimplementedRegion addr)
  | .testMode => .error (.unimplementedRegion addr)
  | .cart =>
    match cartRead addr s with
    | .ok v => .ok (v, s)
    | .error f => .error f

/-- `MemWrite(addr, 1, v)` (20_memory.md R50, R52 to R56, R58): the state after the write, or a fault. -/
def busWrite (addr : Word) (v : Byte) (s : State) : Except Fault State :=
  match route addr with
  | .ram k => .ok { s with ram := Memory.write s.ram k v }
  | .vid slot => .ok (s.emit (.vidWrite slot v))
  | .oamDma => .ok (s.emit (.oamDmaTrigger v))
  | .audioIo => .error (.unimplementedRegion addr)
  | .testMode => .error (.unimplementedRegion addr)
  | .cart =>
    match mapperStrategy s.cart.mapperId with
    | some m => cartWrite m addr v s
    | none => .error (.readOnlyViolation addr)

/-- A fault with the state in which it is raised. One access that faults changes nothing; a sequence of accesses has made those
before the fault, and the collaborator has seen its calls (60_exceptions.md R242). -/
abbrev Raised := Fault × State

/-- `MemRead(addr, 2)`: two routed byte reads, low first, the address wrapping (20_memory.md R59). -/
def readWord (addr : Word) (s : State) : Except Raised (Word × State) :=
  match busRead addr s with
  | .error f => .error (f, s)
  | .ok (lo, s1) =>
    match busRead (addr + 1) s1 with
    | .error f => .error (f, s1)
    | .ok (hi, s2) => .ok (wordOfBytes lo hi, s2)

/-- The byte stored at a bus address, without a bus access: work RAM and program storage. None for every other address. -/
def peek (s : State) (addr : Word) : Option Byte :=
  match route addr with
  | .ram k => some (Memory.read s.ram k)
  | .cart =>
    match cartRead addr s with
    | .ok v => some v
    | .error _ => none
  | _ => none

/-! ### The instruction stream -/

/-- `Fetch8()` (00_scope.md R8): read at `PC`, then advance `PC` by one. -/
def fetch8 (s : State) : Except Fault (Byte × State) :=
  match busRead s.pc s with
  | .error f => .error f
  | .ok (b, t) => .ok (b, t.setPc (t.pc + 1))

/-! ### Data accesses of an effect -/

/-- Read the byte at `ea`, then apply an effect to it; a fault of the read ends the instruction (00_scope.md R8). -/
def readThen (ea : Word) (effect : Byte → State → State) (s : State) : Result :=
  match busRead ea s with
  | .error f => .fault f
  | .ok (v, t) => .next (effect v t)

/-- Write `v` to `ea`, the last action of a store; a fault of the write ends the instruction (41_store.md, head). -/
def storeAt (ea : Word) (v : Byte) (s : State) : Result :=
  match busWrite ea v s with
  | .error f => .fault f
  | .ok t => .next t

end Sys2Proof.Machine
end

