-- ==== Sys2Proof/Machine/Operands.lean ====
section
/-! DEFINITION. Operand resolution, mode by mode (30_encoding.md R110 to R120), on operand bytes that are already consumed
(log 1). Modes IMP and ACC have no operand (R110); the operand of IMM is the byte itself (R111). -/

namespace Sys2Proof.Machine

/-- `zext_16(b)` (00_scope.md R7). -/
def zext16 (b : Byte) : Word := b.setWidth 16

/-- `sext_16(b)` (00_scope.md R7). -/
def sext16 (b : Byte) : Word := b.signExtend 16

/-- The byte at a zero-page address: `MemRead(zext_16(zp), 1)`, a RAM read that cannot fault (20_memory.md R52; log 16). -/
def zeroPageByte (s : State) (zp : Byte) : Byte := Memory.read s.ram zp.toNat

/-- The little-endian pointer at a zero-page address; the high byte comes from zero page too (30_encoding.md R118, R119, D20). -/
def zeroPagePointer (s : State) (zp : Byte) : Word := wordOfBytes (zeroPageByte s zp) (zeroPageByte s (zp + 1))

/-- Mode ZP (30_encoding.md R112). -/
def addrZp (nn : Byte) : Word := zext16 nn

/-- Mode ZPX (30_encoding.md R113): the sum never leaves zero page. -/
def addrZpx (nn : Byte) (s : State) : Word := zext16 (nn + s.x)

/-- Mode ZPY (30_encoding.md R114). -/
def addrZpy (nn : Byte) (s : State) : Word := zext16 (nn + s.y)

/-- Mode ABS (30_encoding.md R115). -/
def addrAbs (nnnn : Word) : Word := nnnn

/-- Mode ABX (30_encoding.md R116), modulo 65536. -/
def addrAbx (nnnn : Word) (s : State) : Word := nnnn + zext16 s.x

/-- Mode ABY (30_encoding.md R117), modulo 65536. -/
def addrAby (nnnn : Word) (s : State) : Word := nnnn + zext16 s.y

/-- Mode IZX (30_encoding.md R118). -/
def addrIzx (nn : Byte) (s : State) : Word := zeroPagePointer s (nn + s.x)

/-- Mode IZY (30_encoding.md R119). -/
def addrIzy (nn : Byte) (s : State) : Word := zeroPagePointer s nn + zext16 s.y

/-- The target of a taken branch, from the `PC` after consumption (30_encoding.md R120, 43_branch.md R210). -/
def branchTarget (off : Byte) (s : State) : Word := s.pc + sext16 off

end Sys2Proof.Machine
end

