-- ==== Sys2Proof/Machine/BranchTransferFlag.lean ====
section
/-! DEFINITION. BEQ (43_branch.md R210), and TXS, CLD, SEI (44_transfer_flag.md R220 to R222). -/

namespace Sys2Proof.Machine

/-- `BEQ label` (43_branch.md R210). On entry `PC` is the opcode's address + 2 (log 1). -/
def execBeq (off : Byte) (s : State) : Result :=
  if s.p.z then .next (s.setPc (branchTarget off s)) else .next s

/-- `TXS`: `SP <- X`, no flag written (44_transfer_flag.md R220). -/
def execTxs (s : State) : Result := .next (s.setSp s.x)

/-- `CLD`: `P.D <- 0` (44_transfer_flag.md R221). -/
def execCld (s : State) : Result := .next (s.setP { s.p with d := false })

/-- `SEI`: `P.I <- 1` (44_transfer_flag.md R222). -/
def execSei (s : State) : Result := .next (s.setP { s.p with i := true })

end Sys2Proof.Machine
end

