-- ==== Sys2Proof/Machine/Loads.lean ====
section
/-! DEFINITION. The loads LDA, LDX, LDY (40_load.md R140 to R166). On entry `PC` is past the instruction (log 1). -/

namespace Sys2Proof.Machine

/-- `LoadA(v)`: `A <- v; SetNZ(v)` (40_load.md R140). -/
def loadA (v : Byte) (s : State) : State := { s with a := v, p := s.p.setNZ v }

/-- `LDA #$nn` (40_load.md R141). -/
def execLdaImm (nn : Byte) (s : State) : Result := .next (loadA nn s)

/-- `LDA $nn` (40_load.md R142). -/
def execLdaZp (nn : Byte) (s : State) : Result := readThen (addrZp nn) loadA s

/-- `LDA $nn,X` (40_load.md R143). -/
def execLdaZpx (nn : Byte) (s : State) : Result := readThen (addrZpx nn s) loadA s

/-- `LDA $nnnn` (40_load.md R144). -/
def execLdaAbs (nnnn : Word) (s : State) : Result := readThen (addrAbs nnnn) loadA s

/-- `LDA $nnnn,X` (40_load.md R145). -/
def execLdaAbx (nnnn : Word) (s : State) : Result := readThen (addrAbx nnnn s) loadA s

/-- `LDA $nnnn,Y` (40_load.md R146). -/
def execLdaAby (nnnn : Word) (s : State) : Result := readThen (addrAby nnnn s) loadA s

/-- `LDA ($nn,X)` (40_load.md R147). -/
def execLdaIzx (nn : Byte) (s : State) : Result := readThen (addrIzx nn s) loadA s

/-- `LDA ($nn),Y` (40_load.md R148). -/
def execLdaIzy (nn : Byte) (s : State) : Result := readThen (addrIzy nn s) loadA s

/-- `LoadX(v)`: `X <- v; SetNZ(v)` (40_load.md R150). -/
def loadX (v : Byte) (s : State) : State := { s with x := v, p := s.p.setNZ v }

/-- `LDX #$nn` (40_load.md R151). -/
def execLdxImm (nn : Byte) (s : State) : Result := .next (loadX nn s)

/-- `LDX $nn` (40_load.md R152). -/
def execLdxZp (nn : Byte) (s : State) : Result := readThen (addrZp nn) loadX s

/-- `LDX $nn,Y` (40_load.md R153). -/
def execLdxZpy (nn : Byte) (s : State) : Result := readThen (addrZpy nn s) loadX s

/-- `LDX $nnnn` (40_load.md R154). -/
def execLdxAbs (nnnn : Word) (s : State) : Result := readThen (addrAbs nnnn) loadX s

/-- `LDX $nnnn,Y` (40_load.md R155). -/
def execLdxAby (nnnn : Word) (s : State) : Result := readThen (addrAby nnnn s) loadX s

/-- `LoadY(v)`: `Y <- v; SetNZ(v)` (40_load.md R160). -/
def loadY (v : Byte) (s : State) : State := { s with y := v, p := s.p.setNZ v }

/-- `LDY #$nn` (40_load.md R161). -/
def execLdyImm (nn : Byte) (s : State) : Result := .next (loadY nn s)

/-- `LDY $nn` (40_load.md R162). -/
def execLdyZp (nn : Byte) (s : State) : Result := readThen (addrZp nn) loadY s

/-- `LDY $nn,X` (40_load.md R163). -/
def execLdyZpx (nn : Byte) (s : State) : Result := readThen (addrZpx nn s) loadY s

/-- `LDY $nnnn` (40_load.md R164). -/
def execLdyAbs (nnnn : Word) (s : State) : Result := readThen (addrAbs nnnn) loadY s

/-- `LDY $nnnn,X` (40_load.md R165). -/
def execLdyAbx (nnnn : Word) (s : State) : Result := readThen (addrAbx nnnn s) loadY s

end Sys2Proof.Machine
end

