-- ==== Sys2Proof/Machine/LogicCompare.lean ====
section
/-! DEFINITION. AND and CMP (42_logic_compare.md R190 to R208). -/

namespace Sys2Proof.Machine

/-- `AndA(m)`: `r <- A & m; A <- r; SetNZ(r)` (42_logic_compare.md R190). -/
def andA (m : Byte) (s : State) : State := { s with a := s.a &&& m, p := s.p.setNZ (s.a &&& m) }

/-- `AND #$nn` (42_logic_compare.md R191). -/
def execAndImm (nn : Byte) (s : State) : Result := .next (andA nn s)

/-- `AND $nn` (42_logic_compare.md R192). -/
def execAndZp (nn : Byte) (s : State) : Result := readThen (addrZp nn) andA s

/-- `AND $nn,X` (42_logic_compare.md R193). -/
def execAndZpx (nn : Byte) (s : State) : Result := readThen (addrZpx nn s) andA s

/-- `AND $nnnn` (42_logic_compare.md R194). -/
def execAndAbs (nnnn : Word) (s : State) : Result := readThen (addrAbs nnnn) andA s

/-- `AND $nnnn,X` (42_logic_compare.md R195). -/
def execAndAbx (nnnn : Word) (s : State) : Result := readThen (addrAbx nnnn s) andA s

/-- `AND $nnnn,Y` (42_logic_compare.md R196). -/
def execAndAby (nnnn : Word) (s : State) : Result := readThen (addrAby nnnn s) andA s

/-- `AND ($nn,X)` (42_logic_compare.md R197). -/
def execAndIzx (nn : Byte) (s : State) : Result := readThen (addrIzx nn s) andA s

/-- `AND ($nn),Y` (42_logic_compare.md R198). -/
def execAndIzy (nn : Byte) (s : State) : Result := readThen (addrIzy nn s) andA s

/-- `CmpA(m)` (42_logic_compare.md R200): `A` is not changed. -/
def cmpA (m : Byte) (s : State) : State := s.setP (s.p.compare s.a m)

/-- `CMP #$nn` (42_logic_compare.md R201). -/
def execCmpImm (nn : Byte) (s : State) : Result := .next (cmpA nn s)

/-- `CMP $nn` (42_logic_compare.md R202). -/
def execCmpZp (nn : Byte) (s : State) : Result := readThen (addrZp nn) cmpA s

/-- `CMP $nn,X` (42_logic_compare.md R203). -/
def execCmpZpx (nn : Byte) (s : State) : Result := readThen (addrZpx nn s) cmpA s

/-- `CMP $nnnn` (42_logic_compare.md R204). -/
def execCmpAbs (nnnn : Word) (s : State) : Result := readThen (addrAbs nnnn) cmpA s

/-- `CMP $nnnn,X` (42_logic_compare.md R205). -/
def execCmpAbx (nnnn : Word) (s : State) : Result := readThen (addrAbx nnnn s) cmpA s

/-- `CMP $nnnn,Y` (42_logic_compare.md R206). -/
def execCmpAby (nnnn : Word) (s : State) : Result := readThen (addrAby nnnn s) cmpA s

/-- `CMP ($nn,X)` (42_logic_compare.md R207). -/
def execCmpIzx (nn : Byte) (s : State) : Result := readThen (addrIzx nn s) cmpA s

/-- `CMP ($nn),Y` (42_logic_compare.md R208). -/
def execCmpIzy (nn : Byte) (s : State) : Result := readThen (addrIzy nn s) cmpA s

end Sys2Proof.Machine
end

