-- ==== Sys2Proof/Machine/Stores.lean ====
section
/-! DEFINITION. The stores STA, STX, STY (41_store.md R170 to R188): one byte written to the effective address, nothing read
from it, no flag written. -/

namespace Sys2Proof.Machine

/-- `STA $nn` (41_store.md R171). -/
def execStaZp (nn : Byte) (s : State) : Result := storeAt (addrZp nn) s.a s

/-- `STA $nn,X` (41_store.md R172). -/
def execStaZpx (nn : Byte) (s : State) : Result := storeAt (addrZpx nn s) s.a s

/-- `STA $nnnn` (41_store.md R173). -/
def execStaAbs (nnnn : Word) (s : State) : Result := storeAt (addrAbs nnnn) s.a s

/-- `STA $nnnn,X` (41_store.md R174). -/
def execStaAbx (nnnn : Word) (s : State) : Result := storeAt (addrAbx nnnn s) s.a s

/-- `STA $nnnn,Y` (41_store.md R175). -/
def execStaAby (nnnn : Word) (s : State) : Result := storeAt (addrAby nnnn s) s.a s

/-- `STA ($nn,X)` (41_store.md R176). -/
def execStaIzx (nn : Byte) (s : State) : Result := storeAt (addrIzx nn s) s.a s

/-- `STA ($nn),Y` (41_store.md R177). -/
def execStaIzy (nn : Byte) (s : State) : Result := storeAt (addrIzy nn s) s.a s

/-- `STX $nn` (41_store.md R181). -/
def execStxZp (nn : Byte) (s : State) : Result := storeAt (addrZp nn) s.x s

/-- `STX $nn,Y` (41_store.md R182). -/
def execStxZpy (nn : Byte) (s : State) : Result := storeAt (addrZpy nn s) s.x s

/-- `STX $nnnn` (41_store.md R183). -/
def execStxAbs (nnnn : Word) (s : State) : Result := storeAt (addrAbs nnnn) s.x s

/-- `STY $nn` (41_store.md R186). -/
def execStyZp (nn : Byte) (s : State) : Result := storeAt (addrZp nn) s.y s

/-- `STY $nn,X` (41_store.md R187). -/
def execStyZpx (nn : Byte) (s : State) : Result := storeAt (addrZpx nn s) s.y s

/-- `STY $nnnn` (41_store.md R188). -/
def execStyAbs (nnnn : Word) (s : State) : Result := storeAt (addrAbs nnnn) s.y s

end Sys2Proof.Machine
end

