-- ==== Sys2Proof/Machine/Dispatch.lean ====
section
/-! DEFINITION. The dispatch: one arm per instruction, one direct call of its meaning (30_encoding.md R108, R126). -/

namespace Sys2Proof.Machine

def exec (i : Instr) (s : State) : Host.Outcome State Fault Refusal :=
  match i with
  | .ldaImm nn => Sys2Proof.Machine.execLdaImm nn s
  | .ldaZp nn => Sys2Proof.Machine.execLdaZp nn s
  | .ldaZpx nn => Sys2Proof.Machine.execLdaZpx nn s
  | .ldaAbs nnnn => Sys2Proof.Machine.execLdaAbs nnnn s
  | .ldaAbx nnnn => Sys2Proof.Machine.execLdaAbx nnnn s
  | .ldaAby nnnn => Sys2Proof.Machine.execLdaAby nnnn s
  | .ldaIzx nn => Sys2Proof.Machine.execLdaIzx nn s
  | .ldaIzy nn => Sys2Proof.Machine.execLdaIzy nn s
  | .ldxImm nn => Sys2Proof.Machine.execLdxImm nn s
  | .ldxZp nn => Sys2Proof.Machine.execLdxZp nn s
  | .ldxZpy nn => Sys2Proof.Machine.execLdxZpy nn s
  | .ldxAbs nnnn => Sys2Proof.Machine.execLdxAbs nnnn s
  | .ldxAby nnnn => Sys2Proof.Machine.execLdxAby nnnn s
  | .ldyImm nn => Sys2Proof.Machine.execLdyImm nn s
  | .ldyZp nn => Sys2Proof.Machine.execLdyZp nn s
  | .ldyZpx nn => Sys2Proof.Machine.execLdyZpx nn s
  | .ldyAbs nnnn => Sys2Proof.Machine.execLdyAbs nnnn s
  | .ldyAbx nnnn => Sys2Proof.Machine.execLdyAbx nnnn s
  | .staZp nn => Sys2Proof.Machine.execStaZp nn s
  | .staZpx nn => Sys2Proof.Machine.execStaZpx nn s
  | .staAbs nnnn => Sys2Proof.Machine.execStaAbs nnnn s
  | .staAbx nnnn => Sys2Proof.Machine.execStaAbx nnnn s
  | .staAby nnnn => Sys2Proof.Machine.execStaAby nnnn s
  | .staIzx nn => Sys2Proof.Machine.execStaIzx nn s
  | .staIzy nn => Sys2Proof.Machine.execStaIzy nn s
  | .stxZp nn => Sys2Proof.Machine.execStxZp nn s
  | .stxZpy nn => Sys2Proof.Machine.execStxZpy nn s
  | .stxAbs nnnn => Sys2Proof.Machine.execStxAbs nnnn s
  | .styZp nn => Sys2Proof.Machine.execStyZp nn s
  | .styZpx nn => Sys2Proof.Machine.execStyZpx nn s
  | .styAbs nnnn => Sys2Proof.Machine.execStyAbs nnnn s
  | .andImm nn => Sys2Proof.Machine.execAndImm nn s
  | .andZp nn => Sys2Proof.Machine.execAndZp nn s
  | .andZpx nn => Sys2Proof.Machine.execAndZpx nn s
  | .andAbs nnnn => Sys2Proof.Machine.execAndAbs nnnn s
  | .andAbx nnnn => Sys2Proof.Machine.execAndAbx nnnn s
  | .andAby nnnn => Sys2Proof.Machine.execAndAby nnnn s
  | .andIzx nn => Sys2Proof.Machine.execAndIzx nn s
  | .andIzy nn => Sys2Proof.Machine.execAndIzy nn s
  | .cmpImm nn => Sys2Proof.Machine.execCmpImm nn s
  | .cmpZp nn => Sys2Proof.Machine.execCmpZp nn s
  | .cmpZpx nn => Sys2Proof.Machine.execCmpZpx nn s
  | .cmpAbs nnnn => Sys2Proof.Machine.execCmpAbs nnnn s
  | .cmpAbx nnnn => Sys2Proof.Machine.execCmpAbx nnnn s
  | .cmpAby nnnn => Sys2Proof.Machine.execCmpAby nnnn s
  | .cmpIzx nn => Sys2Proof.Machine.execCmpIzx nn s
  | .cmpIzy nn => Sys2Proof.Machine.execCmpIzy nn s
  | .beq off => Sys2Proof.Machine.execBeq off s
  | .txs => Sys2Proof.Machine.execTxs s
  | .cld => Sys2Proof.Machine.execCld s
  | .sei => Sys2Proof.Machine.execSei s

end Sys2Proof.Machine
end

