-- ==== Sys2Proof/Machine/Fetch.lean ====
section
/-! DEFINITION. Fetching an instruction through the bus: opcode byte, decode, dispatch, operand bytes, in the order of
70_reset_and_hazards.md R262 and 60_exceptions.md R241; and placing an instruction where the next fetch finds it. -/

namespace Sys2Proof.Machine

/-- The instruction at `PC`, with `PC` past it; or the first fault met: of the opcode fetch, of decode, of dispatch, of an
operand fetch (60_exceptions.md R241). No operand byte is read before decode and dispatch succeed (R232, R233). The spec lets
the effect consume the operand bytes; every effect does so before anything else, so they are consumed here (log 1). A fault comes
with the state it is raised in: `PC` past every byte consumed, and the device reads made before it recorded (R242). -/
def fetchInstr (s : State) : Except Raised (Instr × State) :=
  match fetch8 s with
  | .error f => .error (f, s)
  | .ok (b, s1) =>
    match classifyOpcode b with
    | .illegal => .error (.illegalOpcode b s.pc, s1)
    | .unimplemented op mode => .error (.unimplementedInstruction op mode b s.pc, s1)
    | .implemented (.f1 i) => .ok (i, s1)
    | .implemented (.f2 make) =>
      match fetch8 s1 with
      | .error f => .error (f, s1)
      | .ok (b1, s2) => .ok (make b1, s2)
    | .implemented (.f3 make) =>
      match fetch8 s1 with
      | .error f => .error (f, s1)
      | .ok (b1, s2) =>
        match fetch8 s2 with
        | .error f => .error (f, s2)
        | .ok (b2, s3) => .ok (make (wordOfBytes b1 b2), s3)

/-- `n` consecutive `Fetch8`s: the bytes and the state after them, or the first fault and the state it is raised in. -/
def fetchBytes : Nat → State → Except Raised (List Byte × State)
  | 0, s => .ok ([], s)
  | n + 1, s =>
    match fetch8 s with
    | .error f => .error (f, s)
    | .ok (b, t) =>
      match fetchBytes n t with
      | .error e => .error e
      | .ok (bs, u) => .ok (b :: bs, u)

/-- A program byte can be placed at this address: it is work RAM, or program storage the banks select. -/
def canHold (s : State) (addr : Word) : Bool :=
  match route addr with
  | .ram _ => true
  | .cart => decide (0x8000 ≤ addr) && decide (translateProgram s.banks addr < s.cart.prgBytes)
  | _ => false

/-- Place a byte at an address from outside the machine: in work RAM, or in the cartridge's program storage. -/
def placeByte (s : State) (addr : Word) (v : Byte) : State :=
  match route addr with
  | .ram k => { s with ram := Memory.write s.ram k v }
  | .cart => { s with cart := { s.cart with prg := Memory.write s.cart.prg (translateProgram s.banks addr) v } }
  | _ => s

/-- Place bytes at consecutive addresses. -/
def placeBytes (s : State) (addr : Word) : List Byte → State
  | [] => s
  | b :: rest => placeBytes (placeByte s addr b) (addr + 1) rest

/-- Where a program of three bytes is placed: at `PC` when those addresses can hold it, else at 0x0000, in work RAM (log 15). -/
def placeAddress (s : State) : Word :=
  if canHold s s.pc && canHold s (s.pc + 1) && canHold s (s.pc + 2) then s.pc else 0x0000

end Sys2Proof.Machine
end

