-- ==== Sys2Proof/Machine/Step.lean ====
section
/-! DEFINITION. The step (70_reset_and_hazards.md R262, R263), and the placing of an instruction where the next step fetches
it. -/

namespace Sys2Proof.Machine

/-- `step()`: fetch, decode, dispatch and run one instruction (R262). A machine whose fault latch is set, and one whose
`reset()` has never run, have no step (R263, 60_exceptions.md R243). -/
def step (s : State) : Host.Outcome State Fault Refusal :=
  match s.stepRefusal with
  | some r => .refused r
  | none =>
    match fetchInstr s with
    | .error (f, _) => .fault f
    | .ok (i, t) => exec i t

/-- `s` with the instruction whose bits are `w` where `step` fetches next, and the preconditions of `step` met (log 15). -/
def State.withFetchWord (s : State) (nbits w : Nat) : State :=
  { placeBytes s (placeAddress s) (tableBytes nbits w) with pc := placeAddress s, fault := none, resetDone := true }

end Sys2Proof.Machine
end

