-- ==== Sys2Proof/WellFormed.lean ====
section
/-! DEFINITION. What is well formed: an (operation, mode) pair that has an effect (30_encoding.md R108), hence an instruction,
and a cartridge a machine may exist with (20_memory.md R66, R73; 92_eei_decisions.md D29). -/

namespace Sys2Proof

/-- The modes each operation has an effect in: the table of 30_encoding.md R108, row by row. -/
def Op.modes : Op → List Mode
  | .lda => [.imm, .zp, .zpx, .abs, .abx, .aby, .izx, .izy]
  | .ldx => [.imm, .zp, .zpy, .abs, .aby]
  | .ldy => [.imm, .zp, .zpx, .abs, .abx]
  | .sta => [.zp, .zpx, .abs, .abx, .aby, .izx, .izy]
  | .stx => [.zp, .zpy, .abs]
  | .sty => [.zp, .zpx, .abs]
  | .and => [.imm, .zp, .zpx, .abs, .abx, .aby, .izx, .izy]
  | .cmp => [.imm, .zp, .zpx, .abs, .abx, .aby, .izx, .izy]
  | .beq => [.rel]
  | .txs => [.imp]
  | .cld => [.imp]
  | .sei => [.imp]

/-- The pair has an effect (30_encoding.md R108). -/
def pairWellFormed (op : Op) (mode : Mode) : Bool := op.modes.contains mode

/-- An instruction is well formed when its pair has an effect. Operand widths stand in the types, so every term of `Instr`
passes (Laws/Decode.lean); the check refuses pairs. -/
def Instr.wellFormed (i : Instr) : Bool := pairWellFormed i.op i.mode

namespace Machine

/-- A cartridge a machine may exist with: the magic matches (20_memory.md R73), the mapper is supported (R66),
`PRG_COUNT >= 1` (R66, D29), and both storages are canonical and lie within their declared sizes (R72). -/
def Cartridge.wellFormed (c : Cartridge) : Bool :=
  c.header.magicMatches && supportedMappers.contains c.mapperId && decide (1 ≤ c.prgCount) &&
    (c.prg.wf && c.prg.within c.prgBytes) && (c.chr.wf && c.chr.within c.chrBytes)

end Machine

end Sys2Proof
end

