-- ==== Sys2Proof/Machine/HostCalls.lean ====
section
/-! DEFINITION. The host's calls beside `step` (70_reset_and_hazards.md R270): power-on (R260), `reset()` (R261, R272), and
`step()` as the host sees it, with the fault latched (60_exceptions.md R230). -/

namespace Sys2Proof.Machine

/-- `reset()`: `PC <- MemRead(0xFFFC, 2)` and nothing else of the core (R261); the model marks that it has run (R263, log 10).
Refused on a machine whose latch is set (R270, 60 R243). -/
def resetCall (s : State) : Result :=
  match s.fault with
  | some _ => .refused .faultLatched
  | none =>
    match readWord Config.resetVector s with
    | .error (f, _) => .fault f
    | .ok (target, t) => .next (t.launch target)

/-- What power-on leaves unspecified: any value of each (10_state.md R21 to R23, R37, R40; D9). `chrRam` is used only when
the cartridge has no graphics storage. -/
structure PowerOnValues where
  a : Byte
  x : Byte
  y : Byte
  pc : Word
  ram : Memory
  chrRam : Memory
  deriving DecidableEq, Repr

/-- The machine before its first `reset()`: steps 2 to 5 of R260. Its `PC` is unspecified too (10_state.md R25),
and `step` refuses it (R263). -/
def State.constructed (c : Cartridge) (slots : BankSlots) (v : PowerOnValues) : State where
  a := v.a
  x := v.x
  y := v.y
  sp := Config.spPowerOn
  p := Status.powerOn
  pc := v.pc
  ram := v.ram
  banks := slots
  chrRam := if c.chrCount = 0 then some v.chrRam else none
  cart := c
  fault := none
  resetDone := false
  events := []
  vidAnswers := []
  vidReads := 0

/-- The power-on sequence (R260). A load fault means no machine (60_exceptions.md R239); `PRG_COUNT` = 0 is a refused
configuration (20_memory.md R66, D29). -/
def powerOn (bytes : List Byte) (v : PowerOnValues) : Except LoadError Result :=
  match Cartridge.load bytes with
  | .error e => .error e
  | .ok c =>
    match BankSlots.construct c.mapperId c.prgCount with
    | .error e => .error e
    | .ok slots => if c.prgCount = 0 then .ok (.refused .noProgramBank) else .ok (resetCall (.constructed c slots v))

/-- What the host gets back from `step()` (R270), and the machine it is left with. -/
inductive StepCall where
  /-- The instruction completed. -/
  | completed (s : State)
  /-- The step ended in a fault, which is latched. Of `s` only the latch and the record of the collaborator mean anything: the
  other values after a fault are undefined (60_exceptions.md R242; log 9). -/
  | faulted (f : Fault) (s : State)
  /-- The call is outside its preconditions (R263). -/
  | refused (r : Refusal)
  deriving DecidableEq, Repr

/-- The state in which the fault of a step is raised: where the fetch stopped; or, the fetch being complete, the state the
instruction starts from, since the data access that faults is the first thing it does that could change any state (R262,
60_exceptions.md R241, R242). -/
def State.atFault (s : State) : State :=
  match fetchInstr s with
  | .error (_, r) => r
  | .ok (_, t) => t

/-- `step()` as the host calls it: a fault is latched and handed back (60_exceptions.md R230); the device reads made before it
have been seen by the collaborator (R242). -/
def stepCall (s : State) : StepCall :=
  match step s with
  | .next t => .completed t
  | .fault f => .faulted f (s.atFault.latch f)
  | .refused r => .refused r

end Sys2Proof.Machine
end

