-- ==== Sys2Proof/Safety.lean ====
section
/-! DEFINITION. The terms claims are stated in: what a bus access does written out from the rules of 20_memory.md, where an
instruction reads and stores, and the invariant of a run. -/

namespace Sys2Proof.Machine

/-- The program bank an address of 0x8000 to 0xFFFF shows, and the offset it names (20_memory.md R67), written out. -/
def programOffset (s : State) (addr : Word) : Nat :=
  if addr.toNat ≤ 0xBFFF then s.banks.prgLo * 16384 + addr.toNat % 16384 else s.banks.prgHi * 16384 + addr.toNat % 16384

/-- The little-endian pointer in zero page at `zp` modulo 256, as a number; both bytes come from zero page (30_encoding.md R118,
R119). -/
def zeroPageWord (s : State) (zp : Nat) : Nat :=
  (Memory.read s.ram ((zp + 1) % 256)).toNat * 256 + (Memory.read s.ram (zp % 256)).toNat

/-- Reading one byte at `ea` in state `s` completes with the byte `v` and leaves the state `t`: in work RAM (20_memory.md R52),
in the device register window (R53, R64), in program storage (R57, R67). -/
def Reads (s : State) (ea : Word) (v : Byte) (t : State) : Prop :=
  (ea.toNat ≤ 0x1FFF ∧ v = Memory.read s.ram (ea.toNat % 2048) ∧ t = s) ∨
  (0x2000 ≤ ea.toNat ∧ ea.toNat ≤ 0x3FFF ∧ v = s.vidAnswer (BitVec.ofNat 3 ea.toNat) ∧
    t = { s with
      events := s.events ++ [.vidRead (BitVec.ofNat 3 ea.toNat)]
      vidAnswers := s.vidAnswers.tail
      vidReads := s.vidReads + 1 }) ∨
  (0x8000 ≤ ea.toNat ∧ programOffset s ea < s.cart.prgCount * 16384 ∧
    v = Memory.read s.cart.prg (programOffset s ea) ∧ t = s)

/-- Writing the byte `v` at `ea` in state `s` completes and leaves the state `t`: in work RAM (20_memory.md R52), in the
device register window (R53, R64), at 0x4014 (R54). -/
def Writes (s : State) (ea : Word) (v : Byte) (t : State) : Prop :=
  (ea.toNat ≤ 0x1FFF ∧ t = { s with ram := Memory.write s.ram (ea.toNat % 2048) v }) ∨
  (0x2000 ≤ ea.toNat ∧ ea.toNat ≤ 0x3FFF ∧
    t = { s with events := s.events ++ [.vidWrite (BitVec.ofNat 3 ea.toNat) v] }) ∨
  (ea.toNat = 0x4014 ∧ t = { s with events := s.events ++ [.oamDmaTrigger v] })

/-- Reading one byte at `ea` in state `s` ends the step in the fault `f` (20_memory.md R54 to R57; the last case is the
bounds check of R76, which no state that meets `State.Inv` comes to). -/
def ReadFaults (s : State) (ea : Word) (f : Fault) : Prop :=
  (ea.toNat = 0x4014 ∧ f = .unmappedAddress ea) ∨
  (0x4000 ≤ ea.toNat ∧ ea.toNat ≤ 0x401F ∧ ea.toNat ≠ 0x4014 ∧ f = .unimplementedRegion ea) ∨
  (0x4020 ≤ ea.toNat ∧ ea.toNat ≤ 0x7FFF ∧ f = .unmappedAddress ea) ∨
  (0x8000 ≤ ea.toNat ∧ s.cart.prgCount * 16384 ≤ programOffset s ea ∧ f = .internalBoundsError (programOffset s ea))

/-- Writing one byte at `ea` ends the step in the fault `f` (20_memory.md R55, R56, R58, with no mapper-control address). -/
def WriteFaults (ea : Word) (f : Fault) : Prop :=
  (0x4000 ≤ ea.toNat ∧ ea.toNat ≤ 0x401F ∧ ea.toNat ≠ 0x4014 ∧ f = .unimplementedRegion ea) ∨
  (0x4020 ≤ ea.toNat ∧ f = .readOnlyViolation ea)

/-- The call that reading the byte at `ea` makes to the collaborator, if any (20_memory.md R53, R64). -/
def readCalls (ea : Word) : List Event :=
  if 0x2000 ≤ ea.toNat ∧ ea.toNat ≤ 0x3FFF then [.vidRead (BitVec.ofNat 3 ea.toNat)] else []

/-- The call that writing `v` at `ea` makes to the collaborator, if any (20_memory.md R53, R54, R64). -/
def writeCalls (ea : Word) (v : Byte) : List Event :=
  if 0x2000 ≤ ea.toNat ∧ ea.toNat ≤ 0x3FFF then [.vidWrite (BitVec.ofNat 3 ea.toNat) v]
  else if ea.toNat = 0x4014 then [.oamDmaTrigger v] else []

/-- The calls that reading `n` bytes of the instruction stream from `pc` on makes, in order (20_memory.md R53, R64, R78). -/
def fetchCalls (pc : Word) : Nat → List Event
  | 0 => []
  | n + 1 => readCalls pc ++ fetchCalls (pc + 1) n

/-- The preconditions of `step()`: the latch is empty and `reset()` has run at least once (70_reset_and_hazards.md R263). -/
abbrev State.Ready (s : State) : Prop := s.fault = none ∧ s.resetDone = true

/-- Two bus addresses that show the same work-RAM cell (20_memory.md R52). -/
def SameRamCell (a b : Word) : Prop := a.toNat ≤ 0x1FFF ∧ b.toNat ≤ 0x1FFF ∧ a.toNat % 2048 = b.toNat % 2048

/-- The address of the data byte an instruction reads: loads, AND and CMP in a memory mode (30_encoding.md R112 to R119). -/
def loadAddress (i : Instr) (s : State) : Option Word :=
  match i with
  | .ldaZp nn | .ldxZp nn | .ldyZp nn | .andZp nn | .cmpZp nn => some (addrZp nn)
  | .ldaZpx nn | .ldyZpx nn | .andZpx nn | .cmpZpx nn => some (addrZpx nn s)
  | .ldxZpy nn => some (addrZpy nn s)
  | .ldaAbs nnnn | .ldxAbs nnnn | .ldyAbs nnnn | .andAbs nnnn | .cmpAbs nnnn => some (addrAbs nnnn)
  | .ldaAbx nnnn | .ldyAbx nnnn | .andAbx nnnn | .cmpAbx nnnn => some (addrAbx nnnn s)
  | .ldaAby nnnn | .ldxAby nnnn | .andAby nnnn | .cmpAby nnnn => some (addrAby nnnn s)
  | .ldaIzx nn | .andIzx nn | .cmpIzx nn => some (addrIzx nn s)
  | .ldaIzy nn | .andIzy nn | .cmpIzy nn => some (addrIzy nn s)
  | .ldaImm _ | .ldxImm _ | .ldyImm _ | .staZp _ | .staZpx _ | .staAbs _ | .staAbx _ | .staAby _ | .staIzx _ | .staIzy _ | .stxZp _ | .stxZpy _ | .stxAbs _ | .styZp _ | .styZpx _ | .styAbs _ | .andImm _ | .cmpImm _ | .beq _ | .txs | .cld | .sei => none

/-- The address of the byte an instruction stores to: STA, STX, STY (30_encoding.md R112 to R119). -/
def storeAddress (i : Instr) (s : State) : Option Word :=
  match i with
  | .staZp nn | .stxZp nn | .styZp nn => some (addrZp nn)
  | .staZpx nn | .styZpx nn => some (addrZpx nn s)
  | .stxZpy nn => some (addrZpy nn s)
  | .staAbs nnnn | .stxAbs nnnn | .styAbs nnnn => some (addrAbs nnnn)
  | .staAbx nnnn => some (addrAbx nnnn s)
  | .staAby nnnn => some (addrAby nnnn s)
  | .staIzx nn => some (addrIzx nn s)
  | .staIzy nn => some (addrIzy nn s)
  | .ldaImm _ | .ldaZp _ | .ldaZpx _ | .ldaAbs _ | .ldaAbx _ | .ldaAby _ | .ldaIzx _ | .ldaIzy _ | .ldxImm _ | .ldxZp _ | .ldxZpy _ | .ldxAbs _ | .ldxAby _ | .ldyImm _ | .ldyZp _ | .ldyZpx _ | .ldyAbs _ | .ldyAbx _ | .andImm _ | .andZp _ | .andZpx _ | .andAbs _ | .andAbx _ | .andAby _ | .andIzx _ | .andIzy _ | .cmpImm _ | .cmpZp _ | .cmpZpx _ | .cmpAbs _ | .cmpAbx _ | .cmpAby _ | .cmpIzx _ | .cmpIzy _ | .beq _ | .txs | .cld | .sei => none

/-- The byte a store operation writes (41_store.md R170, R180, R185). -/
def storedByte (op : Op) (s : State) : Byte :=
  match op with
  | .stx => s.x
  | .sty => s.y
  | .sta | .lda | .ldx | .ldy | .and | .cmp | .beq | .txs | .cld | .sei => s.a

/-- The call the data access of an instruction makes to the collaborator, if any: by a load, AND or CMP at the address it reads,
by a store at the address it stores to (20_memory.md R64; 41_store.md, head). -/
def dataCalls (i : Instr) (s : State) : List Event :=
  match loadAddress i s, storeAddress i s with
  | some ea, _ => readCalls ea
  | none, some ea => writeCalls ea (storedByte i.op s)
  | none, none => []

/-- The flags N and Z recomputed from a result byte, the other six kept: "'negative' flag = bit 7 of the result; 'zero' flag =
result equals zero" (10_state.md R28, R34, R36), in numbers. -/
def withNZ (v : Byte) (p : Status) : Status :=
  { p with n := decide (128 ≤ v.toNat), z := decide (v.toNat = 0) }

/-- The flags after comparing `acc` with `m`, the other five kept (42_logic_compare.md R200, 10_state.md R36), in numbers. -/
def withCompare (acc m : Byte) (p : Status) : Status :=
  { p with
    n := decide (128 ≤ (acc.toNat + 256 - m.toNat) % 256)
    z := decide (acc.toNat = m.toNat)
    c := decide (m.toNat ≤ acc.toNat) }

/-- Placing a byte in a RAM cell (20_memory.md R52). -/
def withRam (s : State) (index : Nat) (v : Byte) : State := { s with ram := Memory.write s.ram index v }

/-- The core part of two states is the same: all but the model's record of the collaborator (10_state.md R20, R45). -/
def SameCore (s t : State) : Prop :=
  s.a = t.a ∧ s.x = t.x ∧ s.y = t.y ∧ s.sp = t.sp ∧ s.p = t.p ∧ s.pc = t.pc ∧ s.ram = t.ram ∧ s.banks = t.banks ∧
    s.chrRam = t.chrRam ∧ s.cart = t.cart ∧ s.fault = t.fault ∧ s.resetDone = t.resetDone

/-- Two outcomes agree in everything but the model's record of the collaborator. -/
def SameOutcome : Result → Result → Prop
  | .next s, .next t => SameCore s t
  | .fault f, .fault g => f = g
  | .refused q, .refused r => q = r
  | _, _ => False

/-- The invariant of a run. -/
structure State.Inv (s : State) : Prop where
  /-- Work RAM is canonical. -/
  ramWf : s.ram.wf = true
  /-- Work RAM has 2048 cells (10_state.md R37). -/
  ramWithin : s.ram.within Config.ramSize = true
  /-- `CHR_RAM`, when present, is canonical and has 8192 cells (10_state.md R40). -/
  chrRamOk : ∀ m, s.chrRam = some m → m.wf = true ∧ m.within Config.chrRamSize = true
  /-- `CHR_RAM` is present exactly when `CHR_COUNT` = 0 (10_state.md R40). -/
  chrRamPresent : s.chrRam.isSome = decide (s.cart.chrCount = 0)
  /-- The cartridge is one a machine may exist with (20_memory.md R66, R72, R73). -/
  cartOk : s.cart.wellFormed = true
  /-- The slots are mapper 0's, for ever (20_memory.md R69, 10_state.md R38). -/
  banksFixed : s.banks = BankSlots.initial s.cart.prgCount
  /-- `P.U` is 1 for the whole run (10_state.md R30). -/
  alwaysOne : s.p.u = true
  /-- `P.I` is 1: set at power-on, and nothing clears it (44_transfer_flag.md R222). -/
  interruptDisable : s.p.i = true
  /-- The fault latch is empty (10_state.md R41). -/
  notFaulted : s.fault = none
  /-- `reset()` has run (70_reset_and_hazards.md R263). -/
  launched : s.resetDone = true

end Sys2Proof.Machine
end

