-- ==== Sys2Proof/Certificates/Slice0/Obligations.lean ====
section
/-! DEFINITION. The statements for the provers. `Reads`, `Writes`, `ReadFaults`, `WriteFaults`, `readCalls`, `writeCalls`, `withNZ`,
`withCompare` and `zeroPageWord` (Sys2Proof/Safety.lean) are the rules written out in numbers, apart from the machine's own operations. -/

open Sys2Proof Sys2Proof.Machine

/-- Decoding the encoding of any instruction gives it back, with the bytes after it (30_encoding.md R100, R102 to R108,
opcode_table.json). For every instruction, with every operand at every value, and any bytes after it: the decoder
reads exactly that instruction from its encoding and leaves the bytes after it. -/
def Obligations.DecodeOfEncodeIsIdentity : Prop :=
  ∀ (i : Instr) (rest : List Byte), decode (encode i ++ rest) = .instr i rest

/-- Bytes that decode to an instruction are the encoding of that instruction (30_encoding.md R100, R108, R122). If the
decoder reads an instruction from a byte sequence, the sequence is the encoding of that instruction followed by the
bytes the decoder leaves: no two byte sequences spell one instruction. -/
def Obligations.EncodeOfDecodeIsIdentity : Prop :=
  ∀ (bytes rest : List Byte) (i : Instr), decode bytes = .instr i rest → bytes = encode i ++ rest

/-- The outcome of each of the 256 opcode bytes (30_encoding.md R109 (the grid, the counts and the 14 U bytes)). Each of
the 51 bytes of the grid decodes to its (operation, mode) pair and has a form; each of the 14 U bytes decodes to its
pair, which has none; every other byte, 191 of them, is an illegal opcode. -/
def Obligations.OpcodeOutcomeMap : Prop :=
  let implemented : List (Byte × Op × Mode) :=
    [(0x21, .and, .izx), (0x25, .and, .zp), (0x29, .and, .imm), (0x2D, .and, .abs), (0x31, .and, .izy),
      (0x35, .and, .zpx), (0x39, .and, .aby), (0x3D, .and, .abx), (0x78, .sei, .imp), (0x81, .sta, .izx),
      (0x84, .sty, .zp), (0x85, .sta, .zp), (0x86, .stx, .zp), (0x8C, .sty, .abs), (0x8D, .sta, .abs),
      (0x8E, .stx, .abs), (0x91, .sta, .izy), (0x94, .sty, .zpx), (0x95, .sta, .zpx), (0x96, .stx, .zpy),
      (0x99, .sta, .aby), (0x9A, .txs, .imp), (0x9D, .sta, .abx), (0xA0, .ldy, .imm), (0xA1, .lda, .izx),
      (0xA2, .ldx, .imm), (0xA4, .ldy, .zp), (0xA5, .lda, .zp), (0xA6, .ldx, .zp), (0xA9, .lda, .imm),
      (0xAC, .ldy, .abs), (0xAD, .lda, .abs), (0xAE, .ldx, .abs), (0xB1, .lda, .izy), (0xB4, .ldy, .zpx),
      (0xB5, .lda, .zpx), (0xB6, .ldx, .zpy), (0xB9, .lda, .aby), (0xBC, .ldy, .abx), (0xBD, .lda, .abx),
      (0xBE, .ldx, .aby), (0xC1, .cmp, .izx), (0xC5, .cmp, .zp), (0xC9, .cmp, .imm), (0xCD, .cmp, .abs),
      (0xD1, .cmp, .izy), (0xD5, .cmp, .zpx), (0xD8, .cld, .imp), (0xD9, .cmp, .aby), (0xDD, .cmp, .abx),
      (0xF0, .beq, .rel)]
  let unimplemented : List (Byte × Op × Mode) :=
    [(0x80, .sty, .imm), (0x82, .stx, .imm), (0x88, .sty, .imp), (0x89, .sta, .imm), (0x8A, .stx, .acc),
      (0x90, .sty, .rel), (0x98, .sty, .imp), (0x9C, .sty, .abx), (0x9E, .stx, .aby), (0xA8, .ldy, .imp),
      (0xAA, .ldx, .acc), (0xB0, .ldy, .rel), (0xB8, .ldy, .imp), (0xBA, .ldx, .imp)]
  implemented.length = 51 ∧ unimplemented.length = 14 ∧
    (∀ r ∈ implemented, decodeOpcode r.1 = some (r.2.1, r.2.2, instrLength r.2.1 r.2.2) ∧
      (dispatch r.2.1 r.2.2).isSome = true) ∧
    (∀ r ∈ unimplemented, decode [r.1] = .unimplemented r.2.1 r.2.2 r.1) ∧
    ∀ b : Byte, b ∉ implemented.map Prod.fst → b ∉ unimplemented.map Prod.fst → decode [b] = .illegalOpcode b

/-- Words written out from the encodings decode to the instructions they stand for (opcode_table.json, 95_test_vectors.md
Part 2 and Part 3). One word or more of every family, written out from the encoding tables, decodes to its
instruction, by the decoder on bytes and by the table-word decoder. That the bits above those of the table are zeros
to the table-word decoder (so that 0xA9 alone is LDA #$00) is the model's choice (log 24). -/
def Obligations.SampleWordsDecode : Prop :=
  decode [0xA9, 0xF0] = .instr (.ldaImm 0xF0) [] ∧ decode [0xAD, 0x34, 0x12] = .instr (.ldaAbs 0x1234) [] ∧
    decode [0xB6, 0xF0] = .instr (.ldxZpy 0xF0) [] ∧ decode [0xBC, 0xFF, 0x1F] = .instr (.ldyAbx 0x1FFF) [] ∧
    decode [0x91, 0x20] = .instr (.staIzy 0x20) [] ∧ decode [0x8E, 0xFF, 0x07] = .instr (.stxAbs 0x07FF) [] ∧
    decode [0x94, 0x10] = .instr (.styZpx 0x10) [] ∧ decode [0x21, 0x40] = .instr (.andIzx 0x40) [] ∧
    decode [0xD9, 0x00, 0x03] = .instr (.cmpAby 0x0300) [] ∧ decode [0xF0, 0xFE] = .instr (.beq 0xFE) [] ∧
    decode [0x9A] = .instr .txs [] ∧ decode [0xD8] = .instr .cld [] ∧ decode [0x78] = .instr .sei [] ∧
    decodeTableWord 16 0xF0A9 = some (.ldaImm 0xF0) ∧ decodeTableWord 24 0x1234AD = some (.ldaAbs 0x1234) ∧
    decodeTableWord 16 0xF0B6 = some (.ldxZpy 0xF0) ∧ decodeTableWord 24 0x1FFFBC = some (.ldyAbx 0x1FFF) ∧
    decodeTableWord 16 0x2091 = some (.staIzy 0x20) ∧ decodeTableWord 24 0x07FF8E = some (.stxAbs 0x07FF) ∧
    decodeTableWord 16 0x1094 = some (.styZpx 0x10) ∧ decodeTableWord 16 0x4021 = some (.andIzx 0x40) ∧
    decodeTableWord 24 0x0300D9 = some (.cmpAby 0x0300) ∧ decodeTableWord 16 0xFEF0 = some (.beq 0xFE) ∧
    decodeTableWord 8 0x9A = some .txs ∧ decodeTableWord 8 0xD8 = some .cld ∧ decodeTableWord 8 0x78 = some .sei ∧
    decodeTableWord 8 0xA9 = some (.ldaImm 0)

/-- The length of an instruction is its base length plus the delta of its mode, and its encoding has that length (R107).
Base length 2 for every operation; delta -1 for IMP and ACC, +1 for ABS, ABX, ABY, 0 for the others; every decoded
opcode reports base plus delta, and every encoded instruction has that many bytes. -/
def Obligations.LengthLaw : Prop :=
  (∀ op, baseLength op = 2) ∧
    (∀ mode, modeDelta mode = if mode = .imp ∨ mode = .acc then -1 else if mode = .abs ∨ mode = .abx ∨ mode = .aby then 1 else 0) ∧
    (∀ b op mode len, decodeOpcode b = some (op, mode, len) → (len : Int) = baseLength op + modeDelta mode) ∧
    ∀ i : Instr, ((encode i).length : Int) = baseLength i.op + modeDelta i.mode

/-- When the bytes fetched from PC decode to an instruction, the step is the execution of that instruction
(70_reset_and_hazards.md R262, 30_encoding.md R121, 20_memory.md R63). Where step() may be called (latch empty,
reset() has run): if n Fetch8s from PC give bytes that decode to exactly the instruction i and leave the state t, then
t has PC advanced by n (modulo 65536), and step s is exec i t. The bytes may come from any region, each routed on its
own. -/
def Obligations.StepRunsTheDecodedInstruction : Prop :=
  ∀ (s t : State) (n : Nat) (bytes : List Byte) (i : Instr),
    s.Ready → fetchBytes n s = .ok (bytes, t) → decode bytes = .instr i [] →
      t.pc = s.pc + BitVec.ofNat 16 n ∧ step s = exec i t

/-- When work RAM or program storage holds an encoded instruction at PC, the step runs it with PC past it and nothing else
changed (70_reset_and_hazards.md R262, 10_state.md R25, 20_memory.md R51, R81). Where step() may be called (latch
empty, reset() has run): if the bytes stored from PC on (addresses wrapping modulo 65536) are the encoding of i, then
step s is exec i of s with PC advanced by the length of i. -/
def Obligations.StepRunsTheStoredInstruction : Prop :=
  ∀ (s : State) (i : Instr), s.Ready →
    (∀ k, k < (encode i).length → peek s (s.pc + BitVec.ofNat 16 k) = (encode i)[k]?) →
      step s = exec i { s with pc := s.pc + BitVec.ofNat 16 (encode i).length }

/-- A step that takes no branch leaves PC at the address of its opcode plus its length (10_state.md R25, 30_encoding.md
R121). If the fetch from s answers the instruction i, the step completes, and i is not a BEQ with Z set, then PC after
the step is PC before it plus the length of i by the length law, modulo 65536. -/
def Obligations.StepAdvancesPcPastTheInstruction : Prop :=
  ∀ (s u t : State) (i : Instr), fetchInstr s = .ok (i, u) → step s = .next t → (i.op ≠ .beq ∨ s.p.z = false) →
    t.pc = s.pc + BitVec.ofNat 16 (instrLength i.op i.mode)

/-- Fetching a byte that decodes to no operation or no mode ends the step in IllegalOpcode (60_exceptions.md R232,
30_encoding.md R105). Where step() may be called (latch empty, reset() has run): if the byte b is read at PC and
decode(b) has no operation or no mode, the step ends in IllegalOpcode carrying b and the address it was fetched from,
whatever the bytes after it are. -/
def Obligations.IllegalOpcodeFaults : Prop :=
  ∀ (s t : State) (b : Byte), s.Ready → Reads s s.pc b t → decodeOpcode b = none →
    step s = .fault (.illegalOpcode b s.pc)

/-- Fetching one of the 14 bytes that decode to a pair with no effect ends the step in UnimplementedInstruction
(60_exceptions.md R233, 30_encoding.md R109). Where step() may be called (latch empty, reset() has run): if the byte
read at PC is one of the 14, the step ends in UnimplementedInstruction carrying its operation, its mode, the byte and
the address it was fetched from. -/
def Obligations.UnimplementedInstructionFaults : Prop :=
  ∀ (s t : State) (b : Byte) (op : Op) (mode : Mode), s.Ready → Reads s s.pc b t →
    (b, op, mode) ∈ ([
      (0x80, .sty, .imm), (0x82, .stx, .imm), (0x88, .sty, .imp), (0x89, .sta, .imm), (0x8A, .stx, .acc),
      (0x90, .sty, .rel), (0x98, .sty, .imp), (0x9C, .sty, .abx), (0x9E, .stx, .aby), (0xA8, .ldy, .imp),
      (0xAA, .ldx, .acc), (0xB0, .ldy, .rel), (0xB8, .ldy, .imp), (0xBA, .ldx, .imp)] : List (Byte × Op × Mode)) →
    step s = .fault (.unimplementedInstruction op mode b s.pc)

/-- The step ends in the first fault met: opcode fetch, then decode and dispatch, then each operand fetch in order
(60_exceptions.md R241, 92_eei_decisions.md D32). Where step() may be called (latch empty, reset() has run): a fault
of the opcode fetch ends the step in it; then an opcode byte with no operation or mode ends it in IllegalOpcode and
one whose pair has no effect in UnimplementedInstruction, whatever follows; after an implemented opcode, a fault of
the first operand fetch ends the step in it, and so does a fault of the second. -/
def Obligations.FirstFaultInActionOrderWins : Prop :=
  ∀ (s t u : State) (b b1 : Byte) (op : Op) (mode : Mode) (f : Fault), s.Ready →
    (ReadFaults s s.pc f → step s = .fault f) ∧
    (fetch8 s = .ok (b, t) → decodeOpcode b = none → step s = .fault (.illegalOpcode b s.pc)) ∧
    (fetch8 s = .ok (b, t) → decode [b] = .unimplemented op mode b →
      step s = .fault (.unimplementedInstruction op mode b s.pc)) ∧
    (fetch8 s = .ok (b, t) → decodeOpcode b = some (op, mode, 2) → (dispatch op mode).isSome = true →
      ReadFaults t t.pc f → step s = .fault f) ∧
    (fetch8 s = .ok (b, t) → decodeOpcode b = some (op, mode, 3) → (dispatch op mode).isSome = true →
      ReadFaults t t.pc f → step s = .fault f) ∧
    (fetch8 s = .ok (b, t) → decodeOpcode b = some (op, mode, 3) → (dispatch op mode).isSome = true →
      fetch8 t = .ok (b1, u) → ReadFaults u u.pc f → step s = .fault f)

/-- A machine whose fault latch is set has no step and no reset() (60_exceptions.md R243, 70_reset_and_hazards.md R263
(third precondition), R270). If the fault latch holds a fault, step and resetCall are refused: the spec says a model
refuses the call. -/
def Obligations.FaultedMachineHasNoStep : Prop :=
  ∀ (s : State) (f : Fault), s.fault = some f → step s = .refused .faultLatched ∧ resetCall s = .refused .faultLatched

/-- A step that faults hands the fault to the host and latches it, and no call after it runs (60_exceptions.md R230, R242,
R243, 10_state.md R41). If step s ends in the fault f, then the host call answers f with a machine whose latch holds
f, and every further step or reset() of that machine is refused. What that machine holds of the record is stated
apart; nothing is said of its core (log 9). -/
def Obligations.FaultIsLatchedAndEndsTheRun : Prop :=
  ∀ (s : State) (f : Fault), step s = .fault f →
    ∃ t, stepCall s = .faulted f t ∧ t.fault = some f ∧ stepCall t = .refused .faultLatched ∧
      resetCall t = .refused .faultLatched

/-- Every bus address falls in the row of the routing table that its range names (R85). Work RAM with index addr & 0x07FF
for 0x0000 to 0x1FFF; device slot addr & 7 for 0x2000 to 0x3FFF; OAM-DMA at 0x4014; audio/IO for 0x4000 to 0x4017
without 0x4014; test mode for 0x4018 to 0x401F; the cartridge window for 0x4020 to 0xFFFF. -/
def Obligations.RoutingTable : Prop :=
  ∀ addr : Word,
    (addr.toNat ≤ 0x1FFF → route addr = .ram (addr.toNat % 2048)) ∧
    (0x2000 ≤ addr.toNat → addr.toNat ≤ 0x3FFF → route addr = .vid (BitVec.ofNat 3 (addr.toNat % 8))) ∧
    (addr.toNat = 0x4014 → route addr = .oamDma) ∧
    (0x4000 ≤ addr.toNat → addr.toNat ≤ 0x4017 → addr.toNat ≠ 0x4014 → route addr = .audioIo) ∧
    (0x4018 ≤ addr.toNat → addr.toNat ≤ 0x401F → route addr = .testMode) ∧
    (0x4020 ≤ addr.toNat → route addr = .cart)

/-- A low-RAM read is the read of the physical cell, a write sets that cell, through every alias, and neither faults
(R52). For every address a of 0x0000 to 0x1FFF: a bus read answers the byte of cell a & 0x07FF and changes nothing,
the same as a read of a & 0x07FF; a bus write of v completes and changes nothing but RAM, and afterwards (RAM
canonical) every alias of a reads v and every other low-RAM address reads what it read. -/
def Obligations.RamAccessesAreMirrored : Prop :=
  ∀ (s : State) (a b : Word) (v : Byte), a.toNat ≤ 0x1FFF →
    busRead a s = .ok (Memory.read s.ram (a.toNat % 2048), s) ∧ busRead a s = busRead (a &&& 0x07FF) s ∧
    ∃ ram, busWrite a v s = .ok { s with ram := ram } ∧
      (s.ram.wf = true → SameRamCell b a → busRead b { s with ram := ram } = .ok (v, { s with ram := ram })) ∧
      (s.ram.wf = true → b.toNat ≤ 0x1FFF → ¬ SameRamCell b a →
        busRead b { s with ram := ram } = .ok (Memory.read s.ram (b.toNat % 2048), { s with ram := ram }))

/-- UnmappedAddress is raised by a bus read of 0x4014 or of 0x4020 to 0x7FFF, by nothing else, and carries the address
(R234). A bus read of 0x4014 or of 0x4020 to 0x7FFF ends in UnmappedAddress of that address; a bus read that ends in
UnmappedAddress is one of these; no bus write and no reset() raises it; a step that ends in it was fetching, or
reading the data byte of a load, AND or CMP at that address. -/
def Obligations.UnmappedAddressFaults : Prop :=
  ∀ (s : State) (a b : Word) (v : Byte),
    (a.toNat = 0x4014 ∨ (0x4020 ≤ a.toNat ∧ a.toNat ≤ 0x7FFF) → busRead a s = .error (.unmappedAddress a)) ∧
    (busRead a s = .error (.unmappedAddress b) → b = a ∧ (a.toNat = 0x4014 ∨ (0x4020 ≤ a.toNat ∧ a.toNat ≤ 0x7FFF))) ∧
    busWrite a v s ≠ .error (.unmappedAddress b) ∧ resetCall s ≠ .fault (.unmappedAddress b) ∧
    (step s = .fault (.unmappedAddress b) → (∃ r, fetchInstr s = .error (.unmappedAddress b, r)) ∨
      ∃ i u, fetchInstr s = .ok (i, u) ∧ loadAddress i u = some b)

/-- Every bus write to the cartridge window raises ReadOnlyViolation, and nothing else does (R235). With the supported
mapper a write to 0x4020 to 0xFFFF ends in ReadOnlyViolation of that address; a write that ends in it is one of these;
no read raises it; a step that ends in it is a STA, STX or STY storing to that address. -/
def Obligations.ReadOnlyViolationFaults : Prop :=
  ∀ (s : State) (a b : Word) (v : Byte),
    (0x4020 ≤ a.toNat → busWrite a v s = .error (.readOnlyViolation a)) ∧
    (busWrite a v s = .error (.readOnlyViolation b) → b = a ∧ 0x4020 ≤ a.toNat) ∧
    busRead a s ≠ .error (.readOnlyViolation b) ∧
    (step s = .fault (.readOnlyViolation b) →
      ∃ i u, fetchInstr s = .ok (i, u) ∧ i.op ∈ [Op.sta, Op.stx, Op.sty] ∧ storeAddress i u = some b)

/-- UnimplementedRegion is raised by reads and writes of the audio/IO and test-mode registers, and by nothing else (R236).
A read or write of 0x4000 to 0x4013 or 0x4015 to 0x401F ends in UnimplementedRegion of that address, and an access
that ends in it is one of these; a step that ends in it was fetching, reading or writing that address. -/
def Obligations.UnimplementedRegionFaults : Prop :=
  ∀ (s : State) (a b : Word) (v : Byte),
    (0x4000 ≤ a.toNat → a.toNat ≤ 0x401F → a.toNat ≠ 0x4014 →
      busRead a s = .error (.unimplementedRegion a) ∧ busWrite a v s = .error (.unimplementedRegion a)) ∧
    ((busRead a s = .error (.unimplementedRegion b) ∨ busWrite a v s = .error (.unimplementedRegion b)) →
      b = a ∧ 0x4000 ≤ a.toNat ∧ a.toNat ≤ 0x401F ∧ a.toNat ≠ 0x4014) ∧
    (step s = .fault (.unimplementedRegion b) → (∃ r, fetchInstr s = .error (.unimplementedRegion b, r)) ∨
      ∃ i u, fetchInstr s = .ok (i, u) ∧ (loadAddress i u = some b ∨ storeAddress i u = some b))

/-- A device-window read answers the collaborator's byte and is recorded; a write is an event; neither touches the core
(R53). For 0x2000 to 0x3FFF with slot addr & 7: a bus read answers the byte the collaborator gives for that slot, a
free value of the model (log 5), and appends VidRead(slot) to the record; a write appends VidWrite(slot, v);
registers, flags, RAM, slots, cartridge and latch are unchanged. -/
def Obligations.DeviceWindowAccesses : Prop :=
  ∀ (s : State) (a : Word) (v : Byte), 0x2000 ≤ a.toNat → a.toNat ≤ 0x3FFF →
    (∃ t, busRead a s = .ok (s.vidAnswer (BitVec.ofNat 3 (a.toNat % 8)), t) ∧ SameCore s t ∧
      t.events = s.events ++ [.vidRead (BitVec.ofNat 3 (a.toNat % 8))]) ∧
    (∃ t, busWrite a v s = .ok t ∧ SameCore s t ∧ t.events = s.events ++ [.vidWrite (BitVec.ofNat 3 (a.toNat % 8)) v])

/-- A write to 0x4014 emits OamDmaTrigger and changes no core state; a read of it faults (R54). A bus write of v to 0x4014
completes, appends OamDmaTrigger(v) to the record and changes no core state; a bus read of 0x4014 ends in
UnmappedAddress(0x4014). -/
def Obligations.OamDmaTriggerIsAnEvent : Prop :=
  ∀ (s : State) (v : Byte),
    busWrite 0x4014 v s = .ok { s with events := s.events ++ [.oamDmaTrigger v] } ∧
    busRead 0x4014 s = .error (.unmappedAddress 0x4014)

/-- A word read is two byte reads, low byte first, each routed on its own, the address wrapping (R59). If the byte at a
and then, in the state that leaves, the byte at a + 1 (modulo 65536) are read, the word read answers hi*256 + lo; if
the first read faults the word read ends in that fault and makes no second read; if the second faults it ends in that
one. -/
def Obligations.WordReadIsTwoRoutedByteReads : Prop :=
  ∀ (s t u : State) (a : Word) (lo hi : Byte) (f : Fault),
    (Reads s a lo t → Reads t (BitVec.ofNat 16 (a.toNat + 1)) hi u →
      readWord a s = .ok (BitVec.ofNat 16 (hi.toNat * 256 + lo.toNat), u)) ∧
    (ReadFaults s a f → readWord a s = .error (f, s)) ∧
    (Reads s a lo t → ReadFaults t (BitVec.ofNat 16 (a.toNat + 1)) f → readWord a s = .error (f, t))

/-- translate_program selects the bank of the window and the offset inside it, and stays inside program storage (R67). For
0x8000 to 0xBFFF the offset is prg_lo_bank*16384 + (addr mod 16384), for 0xC000 to 0xFFFF prg_hi_bank*16384 + (addr
mod 16384); with both slots below the bank count it is below count*16384. -/
def Obligations.ProgramWindowTranslation : Prop :=
  ∀ (slots : BankSlots) (addr : Word) (count : Nat),
    (0x8000 ≤ addr.toNat → addr.toNat ≤ 0xBFFF → translateProgram slots addr = slots.prgLo * 16384 + addr.toNat % 16384) ∧
    (0xC000 ≤ addr.toNat → translateProgram slots addr = slots.prgHi * 16384 + addr.toNat % 16384) ∧
    (slots.prgLo < count → slots.prgHi < count → translateProgram slots addr < count * 16384)

/-- Under mapper 0 a one-bank cartridge is seen through both windows, and a two-bank one straight through (20_memory.md
R69 (consequences)). In a state that meets the invariant: with PRG_COUNT = 1 an address a of 0x8000 to 0xBFFF and a +
0x4000 read the same byte, PRG[a - 0x8000]; with PRG_COUNT = 2 an address a of 0x8000 to 0xFFFF reads PRG[a - 0x8000]. -/
def Obligations.OneBankShowsInBothWindows : Prop :=
  ∀ (s : State) (a : Word), s.Inv → 0x8000 ≤ a.toNat →
    (s.cart.prgCount = 1 → a.toNat ≤ 0xBFFF →
      busRead a s = .ok (Memory.read s.cart.prg (a.toNat - 0x8000), s) ∧
      busRead (BitVec.ofNat 16 (a.toNat + 0x4000)) s = .ok (Memory.read s.cart.prg (a.toNat - 0x8000), s)) ∧
    (s.cart.prgCount = 2 → busRead a s = .ok (Memory.read s.cart.prg (a.toNat - 0x8000), s))

/-- translate_graphics names an offset in the graphics storage the cartridge has (20_memory.md R68, 10_state.md R40). The
offset is chr_bank*8192 + (addr mod 8192); in a state that meets the invariant the graphics byte at any address is
read without a bounds error, from CHR_RAM when CHR_COUNT = 0 and from CHR otherwise. -/
def Obligations.GraphicsTranslationStaysInStorage : Prop :=
  (∀ (slots : BankSlots) (addr : Word), translateGraphics slots addr = slots.chr * 8192 + addr.toNat % 8192) ∧
    ∀ (s : State) (addr : Word), s.Inv →
      (s.cart.chrCount = 0 → ∃ m, s.chrRam = some m ∧ s.graphicsByte addr = .ok (Memory.read m (addr.toNat % 8192))) ∧
      (s.cart.chrCount ≠ 0 → s.graphicsByte addr = .ok (Memory.read s.cart.chr (addr.toNat % 8192)))

/-- A control write of any mapper strategy sets the slots it selects, or is rejected with BankOutOfRange (20_memory.md
R58, R70, R71, 60_exceptions.md R237). For every strategy: a write to one of its control addresses sets the three
slots to what the strategy answers when each is below its bank count, and otherwise ends in BankOutOfRange with no
slot changed; a write to another address of the window ends in ReadOnlyViolation. The strategy is the spec's parameter
(log 12). -/
def Obligations.ControlWriteSelectsOrRejects : Prop :=
  ∀ (m : MapperStrategy) (addr : Word) (v : Byte) (s : State),
    (m.isControl addr = true →
      (m.controlWrite s.banks addr v).prgLo < s.cart.prgCount → (m.controlWrite s.banks addr v).prgHi < s.cart.prgCount →
      (m.controlWrite s.banks addr v).chr < max s.cart.chrCount 1 →
      cartWrite m addr v s = .ok { s with banks := m.controlWrite s.banks addr v }) ∧
    (m.isControl addr = true →
      (s.cart.prgCount ≤ (m.controlWrite s.banks addr v).prgLo ∨ s.cart.prgCount ≤ (m.controlWrite s.banks addr v).prgHi ∨
        max s.cart.chrCount 1 ≤ (m.controlWrite s.banks addr v).chr) →
      cartWrite m addr v s = .error (.bankOutOfRange addr v)) ∧
    (m.isControl addr = false → cartWrite m addr v s = .error (.readOnlyViolation addr))

/-- load checks length, magic, total length and mapper in that order, and lays the storages out as the file has them (R72,
R74, R75). A file shorter than 16 bytes is TruncatedImage; else a wrong magic is BadMagic; else fewer bytes than
header plus declared storage is TruncatedImage; else a mapper identifier other than 0 is UnsupportedMapper of it; else
the image has the declared counts, PRG[k] = F[16+k] and CHR[k] = F[16 + PRG_COUNT*16384 + k]. After a load error
power-on gives no machine. -/
def Obligations.LoadChecksInOrder : Prop :=
  ∀ file : List Byte,
    let at' : Nat → Byte := fun k => file.getD k 0
    let magic := at' 0 = 0x4E ∧ at' 1 = 0x45 ∧ at' 2 = 0x53 ∧ at' 3 = 0x1A
    let prgBytes := (at' 4).toNat * 16384
    let chrBytes := (at' 5).toNat * 8192
    let mapper : Byte := (at' 7 &&& 0xF0) ||| (at' 6 >>> 4)
    (file.length < 16 → Cartridge.load file = .error .truncatedImage) ∧
    (16 ≤ file.length → ¬ magic → Cartridge.load file = .error .badMagic) ∧
    (16 ≤ file.length → magic → file.length < 16 + prgBytes + chrBytes → Cartridge.load file = .error .truncatedImage) ∧
    (16 + prgBytes + chrBytes ≤ file.length → magic → mapper ≠ 0 →
      Cartridge.load file = .error (.unsupportedMapper mapper)) ∧
    (16 + prgBytes + chrBytes ≤ file.length → magic → mapper = 0 →
      ∃ c, Cartridge.load file = .ok c ∧ c.prgCount = (at' 4).toNat ∧ c.chrCount = (at' 5).toNat ∧ c.mapperId = 0 ∧
        (∀ k, k < prgBytes → Memory.read c.prg k = at' (16 + k)) ∧
        ∀ k, k < chrBytes → Memory.read c.chr k = at' (16 + prgBytes + k)) ∧
    ∀ e v, Cartridge.load file = .error e → powerOn file v = .error e

/-- Power-on with a cartridge that loads gives a launch state with the values of the power-on summary, and it meets the
invariant (70_reset_and_hazards.md R260, R261, 10_state.md R44, 20_memory.md R66, R77, 92_eei_decisions.md D29). For a
file that loads with PRG_COUNT >= 1 and any values for what power-on leaves unspecified: the launch state has SP =
0xFD, P = 0x34, the fault latch empty, the slots 0, PRG_COUNT - 1, 0, PC the little-endian word at offset
(PRG_COUNT-1)*16384 + 0x3FFC of program storage, and A, X, Y, RAM and CHR_RAM as given; it meets the invariant. A file
that loads with PRG_COUNT = 0 is a refused configuration: power-on is refused with noProgramBank, the model's name for
it (log 11). The empty record of the collaborator is the model's choice (log 6). -/
def Obligations.PowerOnGivesALaunchState : Prop :=
  ∀ (file : List Byte) (c : Cartridge) (v : PowerOnValues),
    Cartridge.load file = .ok c →
    (c.prgCount = 0 → powerOn file v = .ok (.refused .noProgramBank)) ∧
    (1 ≤ c.prgCount → v.ram.wf = true → v.ram.within 2048 = true → v.chrRam.wf = true → v.chrRam.within 8192 = true →
    ∃ s, powerOn file v = .ok (.next s) ∧ s.Inv ∧ s.sp = 0xFD ∧ s.p.toByte = 0x34 ∧ s.fault = none ∧
      s.banks = ⟨0, c.prgCount - 1, 0⟩ ∧ s.cart = c ∧ s.a = v.a ∧ s.x = v.x ∧ s.y = v.y ∧ s.ram = v.ram ∧
      s.chrRam = (if c.chrCount = 0 then some v.chrRam else none) ∧ s.events = [] ∧
      s.pc.toNat = (Memory.read c.prg ((c.prgCount - 1) * 16384 + 0x3FFD)).toNat * 256 +
        (Memory.read c.prg ((c.prgCount - 1) * 16384 + 0x3FFC)).toNat)

/-- reset() reloads PC from the word at 0xFFFC and writes nothing else (R261, R272). In every state that meets the
invariant, reset() completes and leaves the same state with PC the word whose low byte is the last program bank's byte
0x3FFC and whose high byte is the next one. -/
def Obligations.ResetCallWritesPcOnly : Prop :=
  ∀ s : State, s.Inv →
    resetCall s = .next { s with
      pc := BitVec.ofNat 16 ((Memory.read s.cart.prg ((s.cart.prgCount - 1) * 16384 + 0x3FFD)).toNat * 256 +
        (Memory.read s.cart.prg ((s.cart.prgCount - 1) * 16384 + 0x3FFC)).toNat) }

/-- State.reset has the values the power-on summary specifies, and meets the invariant (10_state.md R44,
70_reset_and_hazards.md R260). State.reset has SP = 0xFD, P = 0x34, an empty latch, mapper 0's slots, PC the word at
0xFFFC, and meets the invariant of a run. The cartridge it holds and the values of A, X, Y and RAM are the model's
choices (log 2, 3, 4); the statement names none of them. -/
def Obligations.ResetStateHasTheSpecifiedValues : Prop :=
  State.reset.Inv ∧ State.reset.sp = 0xFD ∧ State.reset.p.toByte = 0x34 ∧ State.reset.fault = none ∧
    State.reset.banks = ⟨0, State.reset.cart.prgCount - 1, 0⟩ ∧ resetCall State.reset = .next State.reset

/-- Every step that completes keeps the invariant of a run (10_state.md R30, R37, R38, R39, R40, R41, 20_memory.md R69,
44_transfer_flag.md R222). For every state that meets the invariant (RAM and CHR_RAM canonical and within their sizes,
CHR_RAM present exactly when CHR_COUNT = 0, a well-formed cartridge, mapper 0's slots, P.U and P.I set, latch empty,
reset() has run): if the step answers a next state, that state meets it too. -/
def Obligations.StepKeepsInvariant : Prop :=
  ∀ s t : State, s.Inv → step s = .next t → t.Inv

/-- From a state that meets the invariant a step completes or ends in one of the five reachable faults; it is never
refused (00_scope.md R9, 60_exceptions.md R231, R237, R238). Under the invariant every step answers a next state or
one of IllegalOpcode, UnimplementedInstruction, UnmappedAddress, ReadOnlyViolation, UnimplementedRegion:
BankOutOfRange and InternalBoundsError cannot occur, and the step is never refused. -/
def Obligations.StepFaultsAreTheFiveReachableOnes : Prop :=
  ∀ s : State, s.Inv →
    (∃ t, step s = .next t) ∨
    (∃ f, step s = .fault f ∧
      ((∃ b a, f = .illegalOpcode b a) ∨ (∃ op mode b a, f = .unimplementedInstruction op mode b a) ∨
        (∃ a, f = .unmappedAddress a) ∨ (∃ a, f = .readOnlyViolation a) ∨ ∃ a, f = .unimplementedRegion a))

/-- No step changes the cartridge, the bank slots, CHR_RAM, or a latch it leaves empty (10_state.md R38, R39, R40,
20_memory.md R58, R69). If a step answers a next state, the cartridge (header, program and graphics storage), the
three bank slots and CHR_RAM are what they were, and the latch is empty. With mapper 0 there is no control address, so
the slots never change. -/
def Obligations.StepNeverChangesCartridgeSlotsOrLatch : Prop :=
  ∀ s t : State, step s = .next t →
    t.cart = s.cart ∧ t.banks = s.banks ∧ t.chrRam = s.chrRam ∧ t.fault = none

/-- LDA in each of its modes completes: the register takes the operand byte, N and Z follow it, nothing else changes
(R140). For each form of LDA: exec answers the next state in which A is the operand byte, N is its bit 7, Z is whether
it is zero. The operand is the immediate byte; the zero-page byte, always; or the byte a read of the effective address
gives, where that read completes. Every other register, flag, RAM byte and slot is as before; a device-window read
leaves its one event in the record. -/
def Obligations.LdaLoadsAccumulator : Prop :=
  ∀ (s t : State) (nn v : Byte) (nnnn : Word),
    exec (.ldaImm nn) s = .next { s with a := nn, p := withNZ nn s.p } ∧
    (let v := Memory.read s.ram (nn.toNat); exec (.ldaZp nn) s = .next { s with a := v, p := withNZ v s.p }) ∧
    (let v := Memory.read s.ram ((nn.toNat + s.x.toNat) % 256); exec (.ldaZpx nn) s = .next { s with a := v, p := withNZ v s.p }) ∧
    (Reads s nnnn v t → exec (.ldaAbs nnnn) s = .next { t with a := v, p := withNZ v t.p }) ∧
    (Reads s (BitVec.ofNat 16 (nnnn.toNat + s.x.toNat)) v t → exec (.ldaAbx nnnn) s = .next { t with a := v, p := withNZ v t.p }) ∧
    (Reads s (BitVec.ofNat 16 (nnnn.toNat + s.y.toNat)) v t → exec (.ldaAby nnnn) s = .next { t with a := v, p := withNZ v t.p }) ∧
    (Reads s (BitVec.ofNat 16 (zeroPageWord s (nn.toNat + s.x.toNat))) v t → exec (.ldaIzx nn) s = .next { t with a := v, p := withNZ v t.p }) ∧
    (Reads s (BitVec.ofNat 16 (zeroPageWord s nn.toNat + s.y.toNat)) v t → exec (.ldaIzy nn) s = .next { t with a := v, p := withNZ v t.p })

/-- LDX in each of its modes completes: the register takes the operand byte, N and Z follow it, nothing else changes
(R150). For each form of LDX: exec answers the next state in which X is the operand byte, N is its bit 7, Z is whether
it is zero. The operand is the immediate byte; the zero-page byte, always; or the byte a read of the effective address
gives, where that read completes. Every other register, flag, RAM byte and slot is as before; a device-window read
leaves its one event in the record. -/
def Obligations.LdxLoadsIndexX : Prop :=
  ∀ (s t : State) (nn v : Byte) (nnnn : Word),
    exec (.ldxImm nn) s = .next { s with x := nn, p := withNZ nn s.p } ∧
    (let v := Memory.read s.ram (nn.toNat); exec (.ldxZp nn) s = .next { s with x := v, p := withNZ v s.p }) ∧
    (let v := Memory.read s.ram ((nn.toNat + s.y.toNat) % 256); exec (.ldxZpy nn) s = .next { s with x := v, p := withNZ v s.p }) ∧
    (Reads s nnnn v t → exec (.ldxAbs nnnn) s = .next { t with x := v, p := withNZ v t.p }) ∧
    (Reads s (BitVec.ofNat 16 (nnnn.toNat + s.y.toNat)) v t → exec (.ldxAby nnnn) s = .next { t with x := v, p := withNZ v t.p })

/-- LDY in each of its modes completes: the register takes the operand byte, N and Z follow it, nothing else changes
(R160). For each form of LDY: exec answers the next state in which Y is the operand byte, N is its bit 7, Z is whether
it is zero. The operand is the immediate byte; the zero-page byte, always; or the byte a read of the effective address
gives, where that read completes. Every other register, flag, RAM byte and slot is as before; a device-window read
leaves its one event in the record. -/
def Obligations.LdyLoadsIndexY : Prop :=
  ∀ (s t : State) (nn v : Byte) (nnnn : Word),
    exec (.ldyImm nn) s = .next { s with y := nn, p := withNZ nn s.p } ∧
    (let v := Memory.read s.ram (nn.toNat); exec (.ldyZp nn) s = .next { s with y := v, p := withNZ v s.p }) ∧
    (let v := Memory.read s.ram ((nn.toNat + s.x.toNat) % 256); exec (.ldyZpx nn) s = .next { s with y := v, p := withNZ v s.p }) ∧
    (Reads s nnnn v t → exec (.ldyAbs nnnn) s = .next { t with y := v, p := withNZ v t.p }) ∧
    (Reads s (BitVec.ofNat 16 (nnnn.toNat + s.x.toNat)) v t → exec (.ldyAbx nnnn) s = .next { t with y := v, p := withNZ v t.p })

/-- AND in each of its modes completes: A takes A AND the operand byte, N and Z follow it, nothing else changes (R190).
For each form of AND: exec answers the next state in which A is the bitwise AND of A and the operand byte, N is bit 7
of it, Z is whether it is zero, C and V untouched. Every other register, flag, RAM byte and slot is as before; a
device-window read leaves its one event in the record. -/
def Obligations.AndMasksAccumulator : Prop :=
  ∀ (s t : State) (nn v : Byte) (nnnn : Word),
    exec (.andImm nn) s = .next { s with a := s.a &&& nn, p := withNZ (s.a &&& nn) s.p } ∧
    (let v := Memory.read s.ram (nn.toNat); exec (.andZp nn) s = .next { s with a := s.a &&& v, p := withNZ (s.a &&& v) s.p }) ∧
    (let v := Memory.read s.ram ((nn.toNat + s.x.toNat) % 256); exec (.andZpx nn) s = .next { s with a := s.a &&& v, p := withNZ (s.a &&& v) s.p }) ∧
    (Reads s nnnn v t → exec (.andAbs nnnn) s = .next { t with a := s.a &&& v, p := withNZ (s.a &&& v) t.p }) ∧
    (Reads s (BitVec.ofNat 16 (nnnn.toNat + s.x.toNat)) v t → exec (.andAbx nnnn) s = .next { t with a := s.a &&& v, p := withNZ (s.a &&& v) t.p }) ∧
    (Reads s (BitVec.ofNat 16 (nnnn.toNat + s.y.toNat)) v t → exec (.andAby nnnn) s = .next { t with a := s.a &&& v, p := withNZ (s.a &&& v) t.p }) ∧
    (Reads s (BitVec.ofNat 16 (zeroPageWord s (nn.toNat + s.x.toNat))) v t → exec (.andIzx nn) s = .next { t with a := s.a &&& v, p := withNZ (s.a &&& v) t.p }) ∧
    (Reads s (BitVec.ofNat 16 (zeroPageWord s nn.toNat + s.y.toNat)) v t → exec (.andIzy nn) s = .next { t with a := s.a &&& v, p := withNZ (s.a &&& v) t.p })

/-- CMP in each of its modes completes: N, Z and C report A against the operand byte, A and all else is kept (R200). For
each form of CMP: exec answers the next state in which N is bit 7 of A - m modulo 256, Z is A = m, C is A >= m
unsigned, and A, V and everything else are as before. Every other register, flag, RAM byte and slot is as before; a
device-window read leaves its one event in the record. -/
def Obligations.CmpComparesAccumulator : Prop :=
  ∀ (s t : State) (nn v : Byte) (nnnn : Word),
    exec (.cmpImm nn) s = .next { s with p := withCompare s.a nn s.p } ∧
    (let v := Memory.read s.ram (nn.toNat); exec (.cmpZp nn) s = .next { s with p := withCompare s.a v s.p }) ∧
    (let v := Memory.read s.ram ((nn.toNat + s.x.toNat) % 256); exec (.cmpZpx nn) s = .next { s with p := withCompare s.a v s.p }) ∧
    (Reads s nnnn v t → exec (.cmpAbs nnnn) s = .next { t with p := withCompare s.a v t.p }) ∧
    (Reads s (BitVec.ofNat 16 (nnnn.toNat + s.x.toNat)) v t → exec (.cmpAbx nnnn) s = .next { t with p := withCompare s.a v t.p }) ∧
    (Reads s (BitVec.ofNat 16 (nnnn.toNat + s.y.toNat)) v t → exec (.cmpAby nnnn) s = .next { t with p := withCompare s.a v t.p }) ∧
    (Reads s (BitVec.ofNat 16 (zeroPageWord s (nn.toNat + s.x.toNat))) v t → exec (.cmpIzx nn) s = .next { t with p := withCompare s.a v t.p }) ∧
    (Reads s (BitVec.ofNat 16 (zeroPageWord s nn.toNat + s.y.toNat)) v t → exec (.cmpIzy nn) s = .next { t with p := withCompare s.a v t.p })

/-- STA in each of its modes completes: the register's byte is written at the effective address, nothing is read, no flag
or register changes (R170). For each form of STA: exec answers the next state in which the byte of A is written at the
effective address: into the zero-page cell, always; or, where that write completes, into the RAM cell, as a VidWrite
event or as an OamDmaTrigger event. No read is recorded, and no register or flag changes. -/
def Obligations.StaStoresAccumulator : Prop :=
  ∀ (s t : State) (nn : Byte) (nnnn : Word),
    exec (.staZp nn) s = .next (withRam s (nn.toNat) s.a) ∧
    exec (.staZpx nn) s = .next (withRam s ((nn.toNat + s.x.toNat) % 256) s.a) ∧
    (Writes s nnnn s.a t → exec (.staAbs nnnn) s = .next t) ∧
    (Writes s (BitVec.ofNat 16 (nnnn.toNat + s.x.toNat)) s.a t → exec (.staAbx nnnn) s = .next t) ∧
    (Writes s (BitVec.ofNat 16 (nnnn.toNat + s.y.toNat)) s.a t → exec (.staAby nnnn) s = .next t) ∧
    (Writes s (BitVec.ofNat 16 (zeroPageWord s (nn.toNat + s.x.toNat))) s.a t → exec (.staIzx nn) s = .next t) ∧
    (Writes s (BitVec.ofNat 16 (zeroPageWord s nn.toNat + s.y.toNat)) s.a t → exec (.staIzy nn) s = .next t)

/-- STX in each of its modes completes: the register's byte is written at the effective address, nothing is read, no flag
or register changes (R180). For each form of STX: exec answers the next state in which the byte of X is written at the
effective address: into the zero-page cell, always; or, where that write completes, into the RAM cell, as a VidWrite
event or as an OamDmaTrigger event. No read is recorded, and no register or flag changes. -/
def Obligations.StxStoresIndexX : Prop :=
  ∀ (s t : State) (nn : Byte) (nnnn : Word),
    exec (.stxZp nn) s = .next (withRam s (nn.toNat) s.x) ∧
    exec (.stxZpy nn) s = .next (withRam s ((nn.toNat + s.y.toNat) % 256) s.x) ∧
    (Writes s nnnn s.x t → exec (.stxAbs nnnn) s = .next t)

/-- STY in each of its modes completes: the register's byte is written at the effective address, nothing is read, no flag
or register changes (R185). For each form of STY: exec answers the next state in which the byte of Y is written at the
effective address: into the zero-page cell, always; or, where that write completes, into the RAM cell, as a VidWrite
event or as an OamDmaTrigger event. No read is recorded, and no register or flag changes. -/
def Obligations.StyStoresIndexY : Prop :=
  ∀ (s t : State) (nn : Byte) (nnnn : Word),
    exec (.styZp nn) s = .next (withRam s (nn.toNat) s.y) ∧
    exec (.styZpx nn) s = .next (withRam s ((nn.toNat + s.x.toNat) % 256) s.y) ∧
    (Writes s nnnn s.y t → exec (.styAbs nnnn) s = .next t)

/-- BEQ consumes its offset byte and adds it, sign-extended, to PC exactly when Z is set; nothing else changes (R210).
exec of BEQ answers the next state in which PC is increased by the sign-extended offset modulo 65536 when Z is set,
and the same state when Z is clear. As a step from bytes F0 off at PC the offset byte is read in both cases, PC being
the opcode address + 2 when the branch is decided, and the target is not accessed; a fault of the offset fetch ends
the step. -/
def Obligations.BeqBranchesOnZero : Prop :=
  ∀ (s t u : State) (off : Byte) (f : Fault),
    exec (.beq off) s = .next (if s.p.z = true then
      { s with pc := BitVec.ofNat 16 (s.pc.toNat + off.toNat + if off.toNat < 128 then 0 else 0xFF00) } else s) ∧
    (s.Ready → fetchBytes 2 s = .ok ([0xF0, off], t) → t.pc = s.pc + 2 ∧ step s = exec (.beq off) t) ∧
    (s.Ready → fetch8 s = .ok (0xF0, u) → ReadFaults u u.pc f → step s = .fault f)

/-- TXS copies X to SP, CLD clears D, SEI sets I; each completes in every state and changes nothing else (R220, R221,
R222). exec of TXS answers the next state with SP = X and no flag changed; of CLD with P.D = 0; of SEI with P.I = 1;
every other part of the state is unchanged. In a state that meets the invariant of a run SEI changes no bit. As a step
each is one byte: 9A, D8, 78. -/
def Obligations.TxsCldSeiEffects : Prop :=
  ∀ s t : State,
    exec .txs s = .next { s with sp := s.x } ∧
    exec .cld s = .next { s with p := { s.p with d := false } } ∧
    exec .sei s = .next { s with p := { s.p with i := true } } ∧ (s.Inv → exec .sei s = .next s) ∧
    (s.Ready → fetch8 s = .ok (0x9A, t) → step s = .next { t with sp := t.x }) ∧
    (s.Ready → fetch8 s = .ok (0xD8, t) → step s = .next { t with p := { t.p with d := false } }) ∧
    (s.Ready → fetch8 s = .ok (0x78, t) → step s = .next { t with p := { t.p with i := true } })

/-- A load, AND or CMP whose data read faults ends in that fault, by the row its effective address falls in (40_load.md
R144 (faults of the data read), 42_logic_compare.md R194, R204, 20_memory.md R54 to R57, R76). For every instruction
that reads a data byte: if its effective address is 0x4014 or in 0x4020 to 0x7FFF it ends in UnmappedAddress, in
0x4000 to 0x4013 or 0x4015 to 0x401F in UnimplementedRegion; and, in states no run reaches, an offset outside program
storage ends in InternalBoundsError. -/
def Obligations.DataReadFaults : Prop :=
  ∀ (i : Instr) (s : State) (ea : Word) (f : Fault), loadAddress i s = some ea → ReadFaults s ea f → exec i s = .fault f

/-- A store whose write is rejected ends in the fault of the row its effective address falls in (41_store.md head table,
20_memory.md R55, R56, R58). For every store: an effective address in 0x4000 to 0x4013 or 0x4015 to 0x401F ends in
UnimplementedRegion, one in 0x4020 to 0xFFFF in ReadOnlyViolation, each carrying the address. -/
def Obligations.DataWriteFaults : Prop :=
  ∀ (i : Instr) (s : State) (ea : Word) (f : Fault), storeAddress i s = some ea → WriteFaults ea f → exec i s = .fault f

/-- Each addressing mode computes its effective address by its rule (30_encoding.md R112 to R119). ZP: the operand byte;
ZPX, ZPY: operand plus index modulo 256; ABS: the operand word; ABX, ABY: operand plus index modulo 65536; IZX: the
zero-page pointer at operand plus X modulo 256; IZY: the zero-page pointer at the operand, plus Y modulo 65536; both
pointer bytes from zero page, low byte first. -/
def Obligations.AddressingModes : Prop :=
  ∀ (s : State) (nn : Byte) (nnnn : Word),
    (addrZp nn).toNat = nn.toNat ∧ (addrZpx nn s).toNat = (nn.toNat + s.x.toNat) % 256 ∧
    (addrZpy nn s).toNat = (nn.toNat + s.y.toNat) % 256 ∧ addrAbs nnnn = nnnn ∧
    (addrAbx nnnn s).toNat = (nnnn.toNat + s.x.toNat) % 65536 ∧ (addrAby nnnn s).toNat = (nnnn.toNat + s.y.toNat) % 65536 ∧
    (addrIzx nn s).toNat = zeroPageWord s (nn.toNat + s.x.toNat) ∧
    (addrIzy nn s).toNat = (zeroPageWord s nn.toNat + s.y.toNat) % 65536

/-- An instruction changes no register but its destination (10_state.md R21 to R26, 40_load.md R140, R150, R160,
41_store.md R170, R180, R185, 42_logic_compare.md R190, R200, 44_transfer_flag.md R220). For every instruction whose
execution answers a next state: A is unchanged unless it is LDA or AND, X unless LDX, Y unless LDY, SP unless TXS, PC
unless BEQ; the cartridge, the slots, CHR_RAM, the latch and the mark that reset() has run (the model's own, log 10)
never change. -/
def Obligations.RegistersChangeOnlyAsNamed : Prop :=
  ∀ (i : Instr) (s t : State), exec i s = .next t →
    (i.op ≠ .lda → i.op ≠ .and → t.a = s.a) ∧ (i.op ≠ .ldx → t.x = s.x) ∧ (i.op ≠ .ldy → t.y = s.y) ∧
    (i.op ≠ .txs → t.sp = s.sp) ∧ (i.op ≠ .beq → t.pc = s.pc) ∧
    t.cart = s.cart ∧ t.banks = s.banks ∧ t.chrRam = s.chrRam ∧ t.fault = s.fault ∧ t.resetDone = s.resetDone

/-- An instruction writes exactly the flags its rule lists and no other (R36). For every instruction whose execution
answers a next state, the whole of P after it: LDA, AND, LDX and LDY write N and Z from the byte their register holds
after it, and no other flag; CMP writes N, Z and C from A against its operand, the immediate byte or the byte read at
its effective address, and no other flag; CLD clears D and SEI sets I, and no other flag; STA, STX, STY, BEQ and TXS
write no flag. So N and Z change only by LDA, LDX, LDY, AND or CMP, C only by CMP, D only by CLD, I only by SEI, and
V, U and B never. -/
def Obligations.FlagsChangeOnlyAsNamed : Prop :=
  ∀ (i : Instr) (s t : State), exec i s = .next t →
    (i.op ∈ [Op.lda, Op.and] → t.p = withNZ t.a s.p) ∧ (i.op = .ldx → t.p = withNZ t.x s.p) ∧
    (i.op = .ldy → t.p = withNZ t.y s.p) ∧ (∀ nn, i = .cmpImm nn → t.p = withCompare s.a nn s.p) ∧
    (∀ ea m u, i.op = .cmp → loadAddress i s = some ea → Reads s ea m u → t.p = withCompare s.a m s.p) ∧
    (i.op = .cld → t.p = { s.p with d := false }) ∧ (i.op = .sei → t.p = { s.p with i := true }) ∧
    (i.op ∉ [Op.lda, Op.ldx, Op.ldy, Op.and, Op.cmp] → t.p.n = s.p.n ∧ t.p.z = s.p.z) ∧
    (i.op ≠ .cmp → t.p.c = s.p.c) ∧ (i.op ≠ .cld → t.p.d = s.p.d) ∧ (i.op ≠ .sei → t.p.i = s.p.i) ∧
    t.p.v = s.p.v ∧ t.p.u = s.p.u ∧ t.p.b = s.p.b ∧
    (i.op ∈ [Op.sta, Op.stx, Op.sty, Op.beq, Op.txs] → t.p = s.p)

/-- No step changes the flags V, U and B; no step clears I or sets D; only a CMP step changes C (10_state.md R29, R30,
R31, R32, R33, R35). For every step that answers a next state: V, U and B are as before, I is not cleared, D is not
set, and C changes only when the instruction fetched is a CMP. -/
def Obligations.OverflowBreakAlwaysOneNeverChange : Prop :=
  ∀ s t : State, step s = .next t →
    t.p.v = s.p.v ∧ t.p.u = s.p.u ∧ t.p.b = s.p.b ∧ (s.p.i = true → t.p.i = true) ∧ (s.p.d = false → t.p.d = false) ∧
    (t.p.c = s.p.c ∨ ∃ i u, fetchInstr s = .ok (i, u) ∧ i.op = .cmp)

/-- An instruction that is no store leaves every byte of memory as it was (10_state.md R37, 41_store.md head). For every
instruction with no store address (every load, AND, CMP, BEQ, TXS, CLD, SEI): if its execution answers a next state,
work RAM is unchanged and every bus address holds the byte it held. -/
def Obligations.NonStoringInstructionsLeaveMemory : Prop :=
  ∀ (i : Instr) (s t : State), storeAddress i s = none → exec i s = .next t →
    t.ram = s.ram ∧ ∀ addr, peek t addr = peek s addr

/-- A store changes the one RAM cell its effective address names, seen through all its aliases, and no other byte
(20_memory.md R52, R65, 41_store.md head table). For every store with store address ea whose execution answers a next
state, in a state with canonical RAM: every bus address that does not show the same RAM cell as ea holds the byte it
held; when ea is in 0x0000 to 0x1FFF every alias of it holds the stored byte; when it is not, no byte of memory
changes at all. -/
def Obligations.StoresWriteOnlyTheAddressedCell : Prop :=
  ∀ (i : Instr) (s t : State) (ea : Word), s.ram.wf = true → storeAddress i s = some ea → exec i s = .next t →
    (∀ addr, ¬ SameRamCell addr ea → peek t addr = peek s addr) ∧
    (∀ addr, SameRamCell addr ea → peek t addr = some (storedByte i.op s)) ∧
    (0x2000 ≤ ea.toNat → ∀ addr, peek t addr = peek s addr)

/-- A byte stored to work RAM is the byte the next fetch reads, through every alias (20_memory.md R81,
70_reset_and_hazards.md R266). After a store to an address of 0x0000 to 0x1FFF, in a state with canonical RAM, a fetch
at any address that shows the same cell answers the stored byte and only advances PC: self-modifying code works with
nothing in between. -/
def Obligations.StoredCodeIsFetched : Prop :=
  ∀ (i : Instr) (s t : State) (ea pc : Word), s.ram.wf = true → storeAddress i s = some ea → exec i s = .next t →
    SameRamCell pc ea → fetch8 { t with pc := pc } = .ok (storedByte i.op s, { t with pc := pc + 1 })

/-- A step records its calls to the collaborator in order: one for each device byte it fetches, then that of its data
access (20_memory.md R53, R54, R64, R78). If a step answers a next state, the instruction i was fetched, and the
record after the fetch is the record before the step followed by one VidRead, with its slot, for each byte of the
instruction that lies in 0x2000 to 0x3FFF, in address order; the record after the step is that one followed by the
call of the data access of i, if it makes one: VidRead for a load, AND or CMP, VidWrite or OamDmaTrigger with the
stored byte for a store. Nothing else is recorded, and nothing is lost or reordered. The record is the model's own
field (log 6). -/
def Obligations.EventsAreRecordedInOrder : Prop :=
  ∀ s t : State, step s = .next t →
    ∃ i u, fetchInstr s = .ok (i, u) ∧ u.events = s.events ++ fetchCalls s.pc (instrLength i.op i.mode) ∧
      t.events = u.events ++ dataCalls i u

/-- Where an instruction reads no device slot, the collaborator has no influence on the core (20_memory.md R64,
10_state.md R45). Two states with the same core and any two records of the collaborator (calls made, settled answers,
free answers): an instruction whose data read is not in the device window ends the same way from both, in states with
the same core, or in the same fault. -/
def Obligations.CollaboratorCannotReachTheCore : Prop :=
  ∀ (i : Instr) (s s' : State), SameCore s s' →
    (∀ ea, loadAddress i s = some ea → ea.toNat < 0x2000 ∨ 0x3FFF < ea.toNat) →
    SameOutcome (exec i s) (exec i s')

/-- P as a byte has the eight flags in the listed order from bit 7 to bit 0 (10_state.md R27 (bit positions)). The byte
view of P is 128 N + 64 V + 32 U + 16 B + 8 D + 4 I + 2 Z + C, and reading it back gives the same flags. The bit
positions are the spec's own decision. -/
def Obligations.StatusByteHasTheFlagsInOrder : Prop :=
  ∀ p : Status, p.toByte.toNat = 128 * p.n.toNat + 64 * p.v.toNat + 32 * p.u.toNat + 16 * p.b.toNat + 8 * p.d.toNat +
      4 * p.i.toNat + 2 * p.z.toNat + p.c.toNat ∧ Status.ofByte p.toByte = p

/-- PC runs off 0xFFFF to 0x0000 without a fault (10_state.md R25, 93_implementation_defined.md U21). In a state that
meets the invariant with PC = 0xFFFF, a fetch reads the last byte of the high window and leaves PC = 0x0000, all else
unchanged. -/
def Obligations.FetchWrapsAtTheTop : Prop :=
  ∀ s : State, s.Inv → s.pc = 0xFFFF →
    fetch8 s = .ok (Memory.read s.cart.prg ((s.cart.prgCount - 1) * 16384 + 0x3FFF), { s with pc := 0x0000 })

/-- A machine whose reset() has never run has no step, and reset() gives it one (70_reset_and_hazards.md R260, R263
(second precondition), 92_eei_decisions.md D10). A machine as steps 1 to 5 of power-on leave it, and any other whose
reset() has never run, is refused a step, with no fault latched; reset(), where it completes, leaves a machine step()
may be called on. The mark that reset() has run is the model's own field (log 10). -/
def Obligations.MachineNeverResetHasNoStep : Prop :=
  ∀ (s t : State) (c : Cartridge) (slots : BankSlots) (v : PowerOnValues),
    step (.constructed c slots v) = .refused .neverReset ∧ stepCall (.constructed c slots v) = .refused .neverReset ∧
    (s.fault = none → s.resetDone = false → step s = .refused .neverReset ∧ stepCall s = .refused .neverReset) ∧
    (resetCall s = .next t → t.Ready)

/-- The device reads a step makes before it faults are in the record of the machine it leaves, and nothing else is
(60_exceptions.md R241, R242, 20_memory.md R64). If the host's step() is answered with a fault, the machine left has
it latched, and its record is the record before the step followed by one VidRead, with its slot, for each byte fetched
from 0x2000 to 0x3FFF before the fault, in address order: every byte of the instruction where its data access faults;
the bytes before the one that cannot be read where the fetch faults; the opcode alone where it is no instruction. The
access that faults makes no call. Nothing is said of the core (log 9). -/
def Obligations.CallsBeforeAFaultAreRecorded : Prop :=
  ∀ (s t : State) (f : Fault), stepCall s = .faulted f t →
    t.fault = some f ∧
    ((∃ i u, fetchInstr s = .ok (i, u) ∧ exec i u = .fault f ∧
        t.events = s.events ++ fetchCalls s.pc (instrLength i.op i.mode)) ∨
      (∃ n bytes u, fetchInstr s = .error (f, u) ∧ fetchBytes n s = .ok (bytes, u) ∧ ReadFaults u u.pc f ∧
        t.events = s.events ++ fetchCalls s.pc n) ∨
      ∃ b u, fetchInstr s = .error (f, u) ∧ fetchBytes 1 s = .ok ([b], u) ∧
        (f = .illegalOpcode b s.pc ∨ ∃ op mode, f = .unimplementedInstruction op mode b s.pc) ∧
        t.events = s.events ++ readCalls s.pc)
end

