-- ==== Sys2Proof/Laws/Memory.lean ====
section
/-! SUPPORT. The laws of a byte store: read after write, and that every operation keeps the canonical form. -/

namespace Sys2Proof.Machine

open Memory

@[simp] theorem Memory.read_nil (k : Nat) : Memory.read [] k = Memory.unlisted := rfl

theorem Memory.risesFrom_mono {lo lo' : Nat} (h : lo' ≤ lo) :
    ∀ {m : Memory}, Memory.risesFrom lo m = true → Memory.risesFrom lo' m = true
  | [], _ => rfl
  | (j, w) :: rest, hm => by
    simp only [Memory.risesFrom, Bool.and_eq_true, decide_eq_true_eq] at hm ⊢
    exact ⟨⟨by omega, hm.1.2⟩, hm.2⟩

/-- Below its least index a store reads as unlisted. -/
theorem Memory.read_below : ∀ {m : Memory} {lo k : Nat}, Memory.risesFrom lo m = true → k < lo →
    Memory.read m k = Memory.unlisted
  | [], _, _, _, _ => rfl
  | (j, w) :: rest, lo, k, hm, hk => by
    simp only [Memory.risesFrom, Bool.and_eq_true, decide_eq_true_eq] at hm
    rw [Memory.read, if_neg (by omega)]
    exact Memory.read_below hm.2 (by omega)

/-- Read after write, at the index written. -/
theorem Memory.read_write_same : ∀ {m : Memory} {lo : Nat} (k : Nat) (v : Byte), Memory.risesFrom lo m = true →
    Memory.read (Memory.write m k v) k = v
  | [], _, k, v, _ => by
    by_cases hv : v = Memory.unlisted <;> simp [Memory.write, Memory.read, hv]
  | (j, w) :: rest, lo, k, v, hm => by
    simp only [Memory.risesFrom, Bool.and_eq_true, decide_eq_true_eq] at hm
    have tail : k ≤ j → Memory.read rest k = Memory.unlisted := fun h => Memory.read_below hm.2 (by omega)
    unfold Memory.write
    by_cases hlt : k < j
    · by_cases hv : v = Memory.unlisted <;> simp [Memory.read, hlt, hv, Nat.ne_of_lt hlt, tail (by omega)]
    · by_cases heq : k = j
      · by_cases hv : v = Memory.unlisted
        · simp [hv, heq]; exact heq ▸ tail (by omega)
        · simp [Memory.read, hv, heq]
      · simpa [hlt, heq, Memory.read] using Memory.read_write_same k v hm.2

/-- Read after write, at every other index. -/
theorem Memory.read_write_other {m : Memory} {k j : Nat} (v : Byte) (hm : m.wf = true) (hj : j ≠ k) :
    Memory.read (Memory.write m k v) j = Memory.read m j := by
  have main : ∀ (m : Memory) (lo k j : Nat) (v : Byte), Memory.risesFrom lo m = true → j ≠ k →
      Memory.read (Memory.write m k v) j = Memory.read m j := by
    intro m
    induction m with
    | nil =>
      intro lo k j v _ hj
      by_cases hv : v = Memory.unlisted <;> simp [Memory.write, Memory.read, hv, hj]
    | cons c rest ih =>
      obtain ⟨i, w⟩ := c
      intro lo k j v hm hj
      simp only [Memory.risesFrom, Bool.and_eq_true, decide_eq_true_eq] at hm
      unfold Memory.write
      by_cases hlt : k < i
      · by_cases hv : v = Memory.unlisted <;> simp [Memory.read, hlt, hv, hj]
      · by_cases heq : k = i
        · by_cases hv : v = Memory.unlisted <;> simp [Memory.read, hv, heq, heq ▸ hj]
        · simp [hlt, heq, Memory.read, ih (i + 1) k j v hm.2 hj]
  exact main m 0 k j v hm hj

/-- A write keeps the canonical form above any bound that its index respects. -/
theorem Memory.write_risesFrom : ∀ {m : Memory} {lo k : Nat} (v : Byte), Memory.risesFrom lo m = true → lo ≤ k →
    Memory.risesFrom lo (Memory.write m k v) = true
  | [], lo, k, v, _, hk => by
    by_cases hv : v = Memory.unlisted <;> simp [Memory.write, Memory.risesFrom, hv, hk]
  | (j, w) :: rest, lo, k, v, hm, hk => by
    simp only [Memory.risesFrom, Bool.and_eq_true, decide_eq_true_eq] at hm
    unfold Memory.write
    by_cases hlt : k < j
    · by_cases hv : v = Memory.unlisted
      · simp [Memory.risesFrom, hlt, hv, hm.1.1, hm.1.2, hm.2]
      · simp only [Memory.risesFrom, hlt, hv, if_true, if_false, Bool.and_eq_true, decide_eq_true_eq]
        exact ⟨⟨hk, hv⟩, ⟨by omega, hm.1.2⟩, hm.2⟩
    · by_cases heq : k = j
      · by_cases hv : v = Memory.unlisted
        · simp only [heq, hv, Nat.lt_irrefl, if_true, if_false]
          exact Memory.risesFrom_mono (by omega) hm.2
        · simp only [heq, hv, Nat.lt_irrefl, if_true, if_false, Memory.risesFrom, Bool.and_eq_true, decide_eq_true_eq]
          exact ⟨⟨hm.1.1, hv⟩, hm.2⟩
      · simp only [hlt, heq, if_false, Memory.risesFrom, Bool.and_eq_true, decide_eq_true_eq]
        exact ⟨hm.1, Memory.write_risesFrom v hm.2 (by omega)⟩

/-- A write keeps the canonical form. -/
theorem Memory.write_wf {m : Memory} (k : Nat) (v : Byte) (hm : m.wf = true) : (Memory.write m k v).wf = true :=
  Memory.write_risesFrom v hm (Nat.zero_le k)

/-- A write adds no cell but its own. -/
theorem Memory.mem_write {c : Host.Cell} {k : Nat} {v : Byte} :
    ∀ {m : Memory}, c ∈ Memory.write m k v → c = (k, v) ∨ c ∈ m
  | [], h => by
    by_cases hv : v = Memory.unlisted <;> simp_all [Memory.write]
  | (j, w) :: rest, h => by
    unfold Memory.write at h
    split at h
    · split at h <;> simp_all
    · split at h
      · split at h
        · exact .inr (List.mem_cons_of_mem _ h)
        · rcases List.mem_cons.1 h with h | h
          · exact .inl h
          · exact .inr (List.mem_cons_of_mem _ h)
      · rcases List.mem_cons.1 h with h | h
        · exact .inr (by simp [h])
        · rcases Memory.mem_write h with h | h
          · exact .inl h
          · exact .inr (List.mem_cons_of_mem _ h)

theorem Memory.within_iff {size : Nat} {m : Memory} : m.within size = true ↔ ∀ c ∈ m, c.1 < size := by
  simp only [Memory.within, List.all_eq_true, decide_eq_true_eq]

/-- A write below `size` stays within `size`. -/
theorem Memory.write_within {size k : Nat} {m : Memory} (v : Byte) (hk : k < size) (hm : m.within size = true) :
    (Memory.write m k v).within size = true := by
  rw [Memory.within_iff] at hm ⊢
  intro c hc
  rcases Memory.mem_write hc with rfl | h
  · exact hk
  · exact hm c h

/-- The store of a byte sequence is canonical. -/
theorem Memory.ofBytesFrom_risesFrom : ∀ (bytes : List Byte) (base : Nat),
    Memory.risesFrom base (Memory.ofBytesFrom base bytes) = true
  | [], _ => rfl
  | b :: rest, base => by
    have ih := Memory.ofBytesFrom_risesFrom rest (base + 1)
    by_cases hb : b = Memory.unlisted
    · simpa [Memory.ofBytesFrom, hb] using Memory.risesFrom_mono (by omega) ih
    · simp [Memory.ofBytesFrom, hb, Memory.risesFrom, ih]

theorem Memory.ofBytes_wf (bytes : List Byte) : (Memory.ofBytes bytes).wf = true :=
  Memory.ofBytesFrom_risesFrom bytes 0

/-- The store of a byte sequence lies within the sequence's length. -/
theorem Memory.ofBytesFrom_within : ∀ (bytes : List Byte) (base size : Nat), base + bytes.length ≤ size →
    (Memory.ofBytesFrom base bytes).within size = true
  | [], _, _, _ => rfl
  | b :: rest, base, size, h => by
    have ih := Memory.ofBytesFrom_within rest (base + 1) size (by simp at h; omega)
    have hb : base < size := by simp at h; omega
    by_cases hu : b = Memory.unlisted
    · simpa [Memory.ofBytesFrom, hu] using ih
    · simp only [Memory.within, Memory.ofBytesFrom, hu, if_false, List.all_cons, Bool.and_eq_true, decide_eq_true_eq] at ih ⊢
      exact ⟨hb, ih⟩

theorem Memory.ofBytes_within (bytes : List Byte) {size : Nat} (h : bytes.length ≤ size) :
    (Memory.ofBytes bytes).within size = true :=
  Memory.ofBytesFrom_within bytes 0 size (by omega)

/-- The store of a byte sequence reads as the sequence, shifted by its base. -/
theorem Memory.read_ofBytesFrom : ∀ (bytes : List Byte) (base k : Nat),
    Memory.read (Memory.ofBytesFrom base bytes) (base + k) = bytes.getD k Memory.unlisted
  | [], _, _ => by simp [Memory.ofBytesFrom]
  | b :: rest, base, 0 => by
    by_cases hb : b = Memory.unlisted
    · simp only [Memory.ofBytesFrom, hb, if_true, Nat.add_zero, List.getD_cons_zero]
      exact Memory.read_below (Memory.ofBytesFrom_risesFrom rest (base + 1)) (by omega)
    · simp [Memory.ofBytesFrom, hb, Memory.read]
  | b :: rest, base, k + 1 => by
    have ih := Memory.read_ofBytesFrom rest (base + 1) k
    have e : base + (k + 1) = base + 1 + k := by omega
    by_cases hb : b = Memory.unlisted
    · simpa [Memory.ofBytesFrom, hb, e] using ih
    · simp only [Memory.ofBytesFrom, hb, if_false, Memory.read, if_neg (show ¬ base + (k + 1) = base by omega), List.getD_cons_succ]
      rw [e]; exact ih

/-- The store of a byte sequence reads as the sequence. -/
theorem Memory.read_ofBytes (bytes : List Byte) (k : Nat) :
    Memory.read (Memory.ofBytes bytes) k = bytes.getD k Memory.unlisted := by
  simpa [Memory.ofBytes] using Memory.read_ofBytesFrom bytes 0 k

end Sys2Proof.Machine
end

