-- ==== Sys2Proof/Laws/State.lean ====
section
/-! SUPPORT. One lemma per field per register update. -/

namespace Sys2Proof.Machine

variable (s : State)

@[simp] theorem State.setPc_a (v : Word) : (s.setPc v).a = s.a := rfl
@[simp] theorem State.setPc_x (v : Word) : (s.setPc v).x = s.x := rfl
@[simp] theorem State.setPc_y (v : Word) : (s.setPc v).y = s.y := rfl
@[simp] theorem State.setPc_sp (v : Word) : (s.setPc v).sp = s.sp := rfl
@[simp] theorem State.setPc_p (v : Word) : (s.setPc v).p = s.p := rfl
@[simp] theorem State.setPc_pc (v : Word) : (s.setPc v).pc = v := rfl
@[simp] theorem State.setPc_ram (v : Word) : (s.setPc v).ram = s.ram := rfl
@[simp] theorem State.setPc_banks (v : Word) : (s.setPc v).banks = s.banks := rfl
@[simp] theorem State.setPc_chrRam (v : Word) : (s.setPc v).chrRam = s.chrRam := rfl
@[simp] theorem State.setPc_cart (v : Word) : (s.setPc v).cart = s.cart := rfl
@[simp] theorem State.setPc_fault (v : Word) : (s.setPc v).fault = s.fault := rfl
@[simp] theorem State.setPc_resetDone (v : Word) : (s.setPc v).resetDone = s.resetDone := rfl
@[simp] theorem State.setPc_events (v : Word) : (s.setPc v).events = s.events := rfl
@[simp] theorem State.setPc_vidAnswers (v : Word) : (s.setPc v).vidAnswers = s.vidAnswers := rfl
@[simp] theorem State.setPc_vidReads (v : Word) : (s.setPc v).vidReads = s.vidReads := rfl

@[simp] theorem State.launch_a (v : Word) : (s.launch v).a = s.a := rfl
@[simp] theorem State.launch_x (v : Word) : (s.launch v).x = s.x := rfl
@[simp] theorem State.launch_y (v : Word) : (s.launch v).y = s.y := rfl
@[simp] theorem State.launch_sp (v : Word) : (s.launch v).sp = s.sp := rfl
@[simp] theorem State.launch_p (v : Word) : (s.launch v).p = s.p := rfl
@[simp] theorem State.launch_pc (v : Word) : (s.launch v).pc = v := rfl
@[simp] theorem State.launch_ram (v : Word) : (s.launch v).ram = s.ram := rfl
@[simp] theorem State.launch_banks (v : Word) : (s.launch v).banks = s.banks := rfl
@[simp] theorem State.launch_chrRam (v : Word) : (s.launch v).chrRam = s.chrRam := rfl
@[simp] theorem State.launch_cart (v : Word) : (s.launch v).cart = s.cart := rfl
@[simp] theorem State.launch_fault (v : Word) : (s.launch v).fault = s.fault := rfl
@[simp] theorem State.launch_resetDone (v : Word) : (s.launch v).resetDone = true := rfl
@[simp] theorem State.launch_events (v : Word) : (s.launch v).events = s.events := rfl
@[simp] theorem State.launch_vidAnswers (v : Word) : (s.launch v).vidAnswers = s.vidAnswers := rfl
@[simp] theorem State.launch_vidReads (v : Word) : (s.launch v).vidReads = s.vidReads := rfl

@[simp] theorem State.setP_a (v : Status) : (s.setP v).a = s.a := rfl
@[simp] theorem State.setP_x (v : Status) : (s.setP v).x = s.x := rfl
@[simp] theorem State.setP_y (v : Status) : (s.setP v).y = s.y := rfl
@[simp] theorem State.setP_sp (v : Status) : (s.setP v).sp = s.sp := rfl
@[simp] theorem State.setP_p (v : Status) : (s.setP v).p = v := rfl
@[simp] theorem State.setP_pc (v : Status) : (s.setP v).pc = s.pc := rfl
@[simp] theorem State.setP_ram (v : Status) : (s.setP v).ram = s.ram := rfl
@[simp] theorem State.setP_banks (v : Status) : (s.setP v).banks = s.banks := rfl
@[simp] theorem State.setP_chrRam (v : Status) : (s.setP v).chrRam = s.chrRam := rfl
@[simp] theorem State.setP_cart (v : Status) : (s.setP v).cart = s.cart := rfl
@[simp] theorem State.setP_fault (v : Status) : (s.setP v).fault = s.fault := rfl
@[simp] theorem State.setP_resetDone (v : Status) : (s.setP v).resetDone = s.resetDone := rfl
@[simp] theorem State.setP_events (v : Status) : (s.setP v).events = s.events := rfl
@[simp] theorem State.setP_vidAnswers (v : Status) : (s.setP v).vidAnswers = s.vidAnswers := rfl
@[simp] theorem State.setP_vidReads (v : Status) : (s.setP v).vidReads = s.vidReads := rfl

@[simp] theorem State.setSp_a (v : Byte) : (s.setSp v).a = s.a := rfl
@[simp] theorem State.setSp_x (v : Byte) : (s.setSp v).x = s.x := rfl
@[simp] theorem State.setSp_y (v : Byte) : (s.setSp v).y = s.y := rfl
@[simp] theorem State.setSp_sp (v : Byte) : (s.setSp v).sp = v := rfl
@[simp] theorem State.setSp_p (v : Byte) : (s.setSp v).p = s.p := rfl
@[simp] theorem State.setSp_pc (v : Byte) : (s.setSp v).pc = s.pc := rfl
@[simp] theorem State.setSp_ram (v : Byte) : (s.setSp v).ram = s.ram := rfl
@[simp] theorem State.setSp_banks (v : Byte) : (s.setSp v).banks = s.banks := rfl
@[simp] theorem State.setSp_chrRam (v : Byte) : (s.setSp v).chrRam = s.chrRam := rfl
@[simp] theorem State.setSp_cart (v : Byte) : (s.setSp v).cart = s.cart := rfl
@[simp] theorem State.setSp_fault (v : Byte) : (s.setSp v).fault = s.fault := rfl
@[simp] theorem State.setSp_resetDone (v : Byte) : (s.setSp v).resetDone = s.resetDone := rfl
@[simp] theorem State.setSp_events (v : Byte) : (s.setSp v).events = s.events := rfl
@[simp] theorem State.setSp_vidAnswers (v : Byte) : (s.setSp v).vidAnswers = s.vidAnswers := rfl
@[simp] theorem State.setSp_vidReads (v : Byte) : (s.setSp v).vidReads = s.vidReads := rfl

@[simp] theorem State.latch_a (f : Fault) : (s.latch f).a = s.a := rfl
@[simp] theorem State.latch_x (f : Fault) : (s.latch f).x = s.x := rfl
@[simp] theorem State.latch_y (f : Fault) : (s.latch f).y = s.y := rfl
@[simp] theorem State.latch_sp (f : Fault) : (s.latch f).sp = s.sp := rfl
@[simp] theorem State.latch_p (f : Fault) : (s.latch f).p = s.p := rfl
@[simp] theorem State.latch_pc (f : Fault) : (s.latch f).pc = s.pc := rfl
@[simp] theorem State.latch_ram (f : Fault) : (s.latch f).ram = s.ram := rfl
@[simp] theorem State.latch_banks (f : Fault) : (s.latch f).banks = s.banks := rfl
@[simp] theorem State.latch_chrRam (f : Fault) : (s.latch f).chrRam = s.chrRam := rfl
@[simp] theorem State.latch_cart (f : Fault) : (s.latch f).cart = s.cart := rfl
@[simp] theorem State.latch_fault (f : Fault) : (s.latch f).fault = some f := rfl
@[simp] theorem State.latch_resetDone (f : Fault) : (s.latch f).resetDone = s.resetDone := rfl
@[simp] theorem State.latch_events (f : Fault) : (s.latch f).events = s.events := rfl
@[simp] theorem State.latch_vidAnswers (f : Fault) : (s.latch f).vidAnswers = s.vidAnswers := rfl
@[simp] theorem State.latch_vidReads (f : Fault) : (s.latch f).vidReads = s.vidReads := rfl

@[simp] theorem State.emit_a (e : Event) : (s.emit e).a = s.a := rfl
@[simp] theorem State.emit_x (e : Event) : (s.emit e).x = s.x := rfl
@[simp] theorem State.emit_y (e : Event) : (s.emit e).y = s.y := rfl
@[simp] theorem State.emit_sp (e : Event) : (s.emit e).sp = s.sp := rfl
@[simp] theorem State.emit_p (e : Event) : (s.emit e).p = s.p := rfl
@[simp] theorem State.emit_pc (e : Event) : (s.emit e).pc = s.pc := rfl
@[simp] theorem State.emit_ram (e : Event) : (s.emit e).ram = s.ram := rfl
@[simp] theorem State.emit_banks (e : Event) : (s.emit e).banks = s.banks := rfl
@[simp] theorem State.emit_chrRam (e : Event) : (s.emit e).chrRam = s.chrRam := rfl
@[simp] theorem State.emit_cart (e : Event) : (s.emit e).cart = s.cart := rfl
@[simp] theorem State.emit_fault (e : Event) : (s.emit e).fault = s.fault := rfl
@[simp] theorem State.emit_resetDone (e : Event) : (s.emit e).resetDone = s.resetDone := rfl
@[simp] theorem State.emit_events (e : Event) : (s.emit e).events = s.events ++ [e] := rfl
@[simp] theorem State.emit_vidAnswers (e : Event) : (s.emit e).vidAnswers = s.vidAnswers := rfl
@[simp] theorem State.emit_vidReads (e : Event) : (s.emit e).vidReads = s.vidReads := rfl

@[simp] theorem State.afterVidRead_a (k : BitVec 3) : (s.afterVidRead k).a = s.a := rfl
@[simp] theorem State.afterVidRead_x (k : BitVec 3) : (s.afterVidRead k).x = s.x := rfl
@[simp] theorem State.afterVidRead_y (k : BitVec 3) : (s.afterVidRead k).y = s.y := rfl
@[simp] theorem State.afterVidRead_sp (k : BitVec 3) : (s.afterVidRead k).sp = s.sp := rfl
@[simp] theorem State.afterVidRead_p (k : BitVec 3) : (s.afterVidRead k).p = s.p := rfl
@[simp] theorem State.afterVidRead_pc (k : BitVec 3) : (s.afterVidRead k).pc = s.pc := rfl
@[simp] theorem State.afterVidRead_ram (k : BitVec 3) : (s.afterVidRead k).ram = s.ram := rfl
@[simp] theorem State.afterVidRead_banks (k : BitVec 3) : (s.afterVidRead k).banks = s.banks := rfl
@[simp] theorem State.afterVidRead_chrRam (k : BitVec 3) : (s.afterVidRead k).chrRam = s.chrRam := rfl
@[simp] theorem State.afterVidRead_cart (k : BitVec 3) : (s.afterVidRead k).cart = s.cart := rfl
@[simp] theorem State.afterVidRead_fault (k : BitVec 3) : (s.afterVidRead k).fault = s.fault := rfl
@[simp] theorem State.afterVidRead_resetDone (k : BitVec 3) : (s.afterVidRead k).resetDone = s.resetDone := rfl
@[simp] theorem State.afterVidRead_events (k : BitVec 3) : (s.afterVidRead k).events = s.events ++ [.vidRead k] := rfl
@[simp] theorem State.afterVidRead_vidAnswers (k : BitVec 3) : (s.afterVidRead k).vidAnswers = s.vidAnswers.tail := rfl
@[simp] theorem State.afterVidRead_vidReads (k : BitVec 3) : (s.afterVidRead k).vidReads = s.vidReads + 1 := rfl

@[simp] theorem loadA_a (v : Byte) : (loadA v s).a = v := rfl
@[simp] theorem loadA_x (v : Byte) : (loadA v s).x = s.x := rfl
@[simp] theorem loadA_y (v : Byte) : (loadA v s).y = s.y := rfl
@[simp] theorem loadA_sp (v : Byte) : (loadA v s).sp = s.sp := rfl
@[simp] theorem loadA_p (v : Byte) : (loadA v s).p = s.p.setNZ v := rfl
@[simp] theorem loadA_pc (v : Byte) : (loadA v s).pc = s.pc := rfl
@[simp] theorem loadA_ram (v : Byte) : (loadA v s).ram = s.ram := rfl
@[simp] theorem loadA_banks (v : Byte) : (loadA v s).banks = s.banks := rfl
@[simp] theorem loadA_chrRam (v : Byte) : (loadA v s).chrRam = s.chrRam := rfl
@[simp] theorem loadA_cart (v : Byte) : (loadA v s).cart = s.cart := rfl
@[simp] theorem loadA_fault (v : Byte) : (loadA v s).fault = s.fault := rfl
@[simp] theorem loadA_resetDone (v : Byte) : (loadA v s).resetDone = s.resetDone := rfl
@[simp] theorem loadA_events (v : Byte) : (loadA v s).events = s.events := rfl
@[simp] theorem loadA_vidAnswers (v : Byte) : (loadA v s).vidAnswers = s.vidAnswers := rfl
@[simp] theorem loadA_vidReads (v : Byte) : (loadA v s).vidReads = s.vidReads := rfl

@[simp] theorem loadX_a (v : Byte) : (loadX v s).a = s.a := rfl
@[simp] theorem loadX_x (v : Byte) : (loadX v s).x = v := rfl
@[simp] theorem loadX_y (v : Byte) : (loadX v s).y = s.y := rfl
@[simp] theorem loadX_sp (v : Byte) : (loadX v s).sp = s.sp := rfl
@[simp] theorem loadX_p (v : Byte) : (loadX v s).p = s.p.setNZ v := rfl
@[simp] theorem loadX_pc (v : Byte) : (loadX v s).pc = s.pc := rfl
@[simp] theorem loadX_ram (v : Byte) : (loadX v s).ram = s.ram := rfl
@[simp] theorem loadX_banks (v : Byte) : (loadX v s).banks = s.banks := rfl
@[simp] theorem loadX_chrRam (v : Byte) : (loadX v s).chrRam = s.chrRam := rfl
@[simp] theorem loadX_cart (v : Byte) : (loadX v s).cart = s.cart := rfl
@[simp] theorem loadX_fault (v : Byte) : (loadX v s).fault = s.fault := rfl
@[simp] theorem loadX_resetDone (v : Byte) : (loadX v s).resetDone = s.resetDone := rfl
@[simp] theorem loadX_events (v : Byte) : (loadX v s).events = s.events := rfl
@[simp] theorem loadX_vidAnswers (v : Byte) : (loadX v s).vidAnswers = s.vidAnswers := rfl
@[simp] theorem loadX_vidReads (v : Byte) : (loadX v s).vidReads = s.vidReads := rfl

@[simp] theorem loadY_a (v : Byte) : (loadY v s).a = s.a := rfl
@[simp] theorem loadY_x (v : Byte) : (loadY v s).x = s.x := rfl
@[simp] theorem loadY_y (v : Byte) : (loadY v s).y = v := rfl
@[simp] theorem loadY_sp (v : Byte) : (loadY v s).sp = s.sp := rfl
@[simp] theorem loadY_p (v : Byte) : (loadY v s).p = s.p.setNZ v := rfl
@[simp] theorem loadY_pc (v : Byte) : (loadY v s).pc = s.pc := rfl
@[simp] theorem loadY_ram (v : Byte) : (loadY v s).ram = s.ram := rfl
@[simp] theorem loadY_banks (v : Byte) : (loadY v s).banks = s.banks := rfl
@[simp] theorem loadY_chrRam (v : Byte) : (loadY v s).chrRam = s.chrRam := rfl
@[simp] theorem loadY_cart (v : Byte) : (loadY v s).cart = s.cart := rfl
@[simp] theorem loadY_fault (v : Byte) : (loadY v s).fault = s.fault := rfl
@[simp] theorem loadY_resetDone (v : Byte) : (loadY v s).resetDone = s.resetDone := rfl
@[simp] theorem loadY_events (v : Byte) : (loadY v s).events = s.events := rfl
@[simp] theorem loadY_vidAnswers (v : Byte) : (loadY v s).vidAnswers = s.vidAnswers := rfl
@[simp] theorem loadY_vidReads (v : Byte) : (loadY v s).vidReads = s.vidReads := rfl

@[simp] theorem andA_a (v : Byte) : (andA v s).a = s.a &&& v := rfl
@[simp] theorem andA_x (v : Byte) : (andA v s).x = s.x := rfl
@[simp] theorem andA_y (v : Byte) : (andA v s).y = s.y := rfl
@[simp] theorem andA_sp (v : Byte) : (andA v s).sp = s.sp := rfl
@[simp] theorem andA_p (v : Byte) : (andA v s).p = s.p.setNZ (s.a &&& v) := rfl
@[simp] theorem andA_pc (v : Byte) : (andA v s).pc = s.pc := rfl
@[simp] theorem andA_ram (v : Byte) : (andA v s).ram = s.ram := rfl
@[simp] theorem andA_banks (v : Byte) : (andA v s).banks = s.banks := rfl
@[simp] theorem andA_chrRam (v : Byte) : (andA v s).chrRam = s.chrRam := rfl
@[simp] theorem andA_cart (v : Byte) : (andA v s).cart = s.cart := rfl
@[simp] theorem andA_fault (v : Byte) : (andA v s).fault = s.fault := rfl
@[simp] theorem andA_resetDone (v : Byte) : (andA v s).resetDone = s.resetDone := rfl
@[simp] theorem andA_events (v : Byte) : (andA v s).events = s.events := rfl
@[simp] theorem andA_vidAnswers (v : Byte) : (andA v s).vidAnswers = s.vidAnswers := rfl
@[simp] theorem andA_vidReads (v : Byte) : (andA v s).vidReads = s.vidReads := rfl

@[simp] theorem cmpA_a (v : Byte) : (cmpA v s).a = s.a := rfl
@[simp] theorem cmpA_x (v : Byte) : (cmpA v s).x = s.x := rfl
@[simp] theorem cmpA_y (v : Byte) : (cmpA v s).y = s.y := rfl
@[simp] theorem cmpA_sp (v : Byte) : (cmpA v s).sp = s.sp := rfl
@[simp] theorem cmpA_p (v : Byte) : (cmpA v s).p = s.p.compare s.a v := rfl
@[simp] theorem cmpA_pc (v : Byte) : (cmpA v s).pc = s.pc := rfl
@[simp] theorem cmpA_ram (v : Byte) : (cmpA v s).ram = s.ram := rfl
@[simp] theorem cmpA_banks (v : Byte) : (cmpA v s).banks = s.banks := rfl
@[simp] theorem cmpA_chrRam (v : Byte) : (cmpA v s).chrRam = s.chrRam := rfl
@[simp] theorem cmpA_cart (v : Byte) : (cmpA v s).cart = s.cart := rfl
@[simp] theorem cmpA_fault (v : Byte) : (cmpA v s).fault = s.fault := rfl
@[simp] theorem cmpA_resetDone (v : Byte) : (cmpA v s).resetDone = s.resetDone := rfl
@[simp] theorem cmpA_events (v : Byte) : (cmpA v s).events = s.events := rfl
@[simp] theorem cmpA_vidAnswers (v : Byte) : (cmpA v s).vidAnswers = s.vidAnswers := rfl
@[simp] theorem cmpA_vidReads (v : Byte) : (cmpA v s).vidReads = s.vidReads := rfl

@[simp] theorem Status.setNZ_n (v : Byte) (p : Status) : (p.setNZ v).n = v.getLsbD 7 := rfl
@[simp] theorem Status.setNZ_v (v : Byte) (p : Status) : (p.setNZ v).v = p.v := rfl
@[simp] theorem Status.setNZ_u (v : Byte) (p : Status) : (p.setNZ v).u = p.u := rfl
@[simp] theorem Status.setNZ_b (v : Byte) (p : Status) : (p.setNZ v).b = p.b := rfl
@[simp] theorem Status.setNZ_d (v : Byte) (p : Status) : (p.setNZ v).d = p.d := rfl
@[simp] theorem Status.setNZ_i (v : Byte) (p : Status) : (p.setNZ v).i = p.i := rfl
@[simp] theorem Status.setNZ_z (v : Byte) (p : Status) : (p.setNZ v).z = decide (v = 0) := rfl
@[simp] theorem Status.setNZ_c (v : Byte) (p : Status) : (p.setNZ v).c = p.c := rfl

@[simp] theorem Status.compare_n (acc m : Byte) (p : Status) : (p.compare acc m).n = (acc - m).getLsbD 7 := rfl
@[simp] theorem Status.compare_v (acc m : Byte) (p : Status) : (p.compare acc m).v = p.v := rfl
@[simp] theorem Status.compare_u (acc m : Byte) (p : Status) : (p.compare acc m).u = p.u := rfl
@[simp] theorem Status.compare_b (acc m : Byte) (p : Status) : (p.compare acc m).b = p.b := rfl
@[simp] theorem Status.compare_d (acc m : Byte) (p : Status) : (p.compare acc m).d = p.d := rfl
@[simp] theorem Status.compare_i (acc m : Byte) (p : Status) : (p.compare acc m).i = p.i := rfl
@[simp] theorem Status.compare_z (acc m : Byte) (p : Status) : (p.compare acc m).z = decide (acc = m) := rfl
@[simp] theorem Status.compare_c (acc m : Byte) (p : Status) : (p.compare acc m).c = decide (m.toNat ≤ acc.toNat) := rfl

end Sys2Proof.Machine
end

