-- ==== Sys2Proof/Laws/Bus.lean ====
section
/-! SUPPORT. The laws of the Memory Bus: which row an address falls in, what an access does, and what it leaves alone. -/

namespace Sys2Proof.Machine

/-! ### The routing table, by address range (20_memory.md R85) -/

theorem route_ram {addr : Word} (h : addr.toNat ≤ 0x1FFF) : route addr = .ram (addr.toNat % 2048) := by
  have h1 : addr ≤ 0x1FFF := by bv_omega
  have h2 : (addr &&& 0x07FF).toNat = addr.toNat % 2048 := by
    rw [BitVec.toNat_and]; exact Nat.and_two_pow_sub_one_eq_mod addr.toNat 11
  rw [route, if_pos h1, h2]

theorem slot_eq (addr : Word) : (addr &&& 0x0007).setWidth 3 = BitVec.ofNat 3 addr.toNat := by
  apply BitVec.eq_of_toNat_eq
  have h : (addr &&& 0x0007).toNat = addr.toNat % 8 := by
    rw [BitVec.toNat_and]; exact Nat.and_two_pow_sub_one_eq_mod addr.toNat 3
  rw [BitVec.toNat_setWidth, h, BitVec.toNat_ofNat]; omega

theorem route_vid {addr : Word} (h1 : 0x2000 ≤ addr.toNat) (h2 : addr.toNat ≤ 0x3FFF) :
    route addr = .vid (BitVec.ofNat 3 addr.toNat) := by
  have n1 : ¬ addr ≤ 0x1FFF := by bv_omega
  have p2 : addr ≤ 0x3FFF := by bv_omega
  rw [route, if_neg n1, if_pos p2, slot_eq]

theorem route_oamDma {addr : Word} (h : addr.toNat = 0x4014) : route addr = .oamDma := by
  obtain rfl : addr = 0x4014 := by bv_omega
  rfl

theorem route_audioIo {addr : Word} (h1 : 0x4000 ≤ addr.toNat) (h2 : addr.toNat ≤ 0x4017) (h3 : addr.toNat ≠ 0x4014) :
    route addr = .audioIo := by
  have n1 : ¬ addr ≤ 0x1FFF := by bv_omega
  have n2 : ¬ addr ≤ 0x3FFF := by bv_omega
  have n3 : ¬ addr = 0x4014 := by bv_omega
  have p4 : addr ≤ 0x4017 := by bv_omega
  rw [route, if_neg n1, if_neg n2, if_neg n3, if_pos p4]

theorem route_testMode {addr : Word} (h1 : 0x4018 ≤ addr.toNat) (h2 : addr.toNat ≤ 0x401F) :
    route addr = .testMode := by
  have n1 : ¬ addr ≤ 0x1FFF := by bv_omega
  have n2 : ¬ addr ≤ 0x3FFF := by bv_omega
  have n3 : ¬ addr = 0x4014 := by bv_omega
  have n4 : ¬ addr ≤ 0x4017 := by bv_omega
  have p5 : addr ≤ 0x401F := by bv_omega
  rw [route, if_neg n1, if_neg n2, if_neg n3, if_neg n4, if_pos p5]

theorem route_cart {addr : Word} (h : 0x4020 ≤ addr.toNat) : route addr = .cart := by
  have n1 : ¬ addr ≤ 0x1FFF := by bv_omega
  have n2 : ¬ addr ≤ 0x3FFF := by bv_omega
  have n3 : ¬ addr = 0x4014 := by bv_omega
  have n4 : ¬ addr ≤ 0x4017 := by bv_omega
  have n5 : ¬ addr ≤ 0x401F := by bv_omega
  rw [route, if_neg n1, if_neg n2, if_neg n3, if_neg n4, if_neg n5]

/-! ### Bank translation (20_memory.md R67) -/

theorem translateProgram_eq_programOffset (s : State) (addr : Word) :
    translateProgram s.banks addr = programOffset s addr := by
  have h : (addr &&& 0x3FFF).toNat = addr.toNat % 16384 := by
    rw [BitVec.toNat_and]; exact Nat.and_two_pow_sub_one_eq_mod addr.toNat 14
  unfold translateProgram programOffset
  by_cases hlo : addr.toNat ≤ 0xBFFF
  · have : addr ≤ 0xBFFF := by bv_omega
    simp only [if_pos hlo, if_pos this, h]
  · have : ¬ addr ≤ 0xBFFF := by bv_omega
    simp only [if_neg hlo, if_neg this, h]

/-- With both program slots in range the offset is inside program storage (20_memory.md R67). -/
theorem programOffset_lt {s : State} {n : Nat} (hlo : s.banks.prgLo < n) (hhi : s.banks.prgHi < n) (addr : Word) :
    programOffset s addr < n * 16384 := by
  have := Nat.mod_lt addr.toNat (show 0 < 16384 by decide)
  unfold programOffset
  split <;> omega

/-! ### Reads -/

theorem cartRead_low {addr : Word} (s : State) (h : addr.toNat ≤ 0x7FFF) :
    cartRead addr s = .error (.unmappedAddress addr) := by
  rw [cartRead, if_neg (by bv_omega)]

theorem cartRead_high {addr : Word} (s : State) (h : 0x8000 ≤ addr.toNat) :
    cartRead addr s = if programOffset s addr < s.cart.prgCount * 16384 then
      .ok (Memory.read s.cart.prg (programOffset s addr)) else .error (.internalBoundsError (programOffset s addr)) := by
  rw [cartRead, if_pos (by bv_omega), Cartridge.prgByte, translateProgram_eq_programOffset]; rfl

/-- A bus read does what the rules say where they say it completes. -/
theorem busRead_of_reads {s t : State} {ea : Word} {v : Byte} (h : Reads s ea v t) : busRead ea s = .ok (v, t) := by
  rcases h with ⟨h, rfl, rfl⟩ | ⟨h1, h2, rfl, rfl⟩ | ⟨h1, h2, rfl, rfl⟩
  · simp only [busRead, route_ram h]
  · simp only [busRead, route_vid h1 h2]; rfl
  · simp only [busRead, route_cart (show 0x4020 ≤ ea.toNat by omega), cartRead_high _ h1, if_pos h2]

/-- A bus read faults as the rules say. -/
theorem busRead_of_readFaults {s : State} {ea : Word} {f : Fault} (h : ReadFaults s ea f) : busRead ea s = .error f := by
  rcases h with ⟨h, rfl⟩ | ⟨h1, h2, h3, rfl⟩ | ⟨h1, h2, rfl⟩ | ⟨h1, h2, rfl⟩
  · simp only [busRead, route_oamDma h]
  · by_cases h4 : ea.toNat ≤ 0x4017
    · simp only [busRead, route_audioIo h1 h4 h3]
    · simp only [busRead, route_testMode (show 0x4018 ≤ ea.toNat by omega) h2]
  · simp only [busRead, route_cart h1, cartRead_low _ h2]
  · simp only [busRead, route_cart (show 0x4020 ≤ ea.toNat by omega), cartRead_high _ h1, if_neg (Nat.not_lt.2 h2)]

/-- Every read either completes or faults, as the rules say. -/
theorem reads_or_readFaults (s : State) (ea : Word) : (∃ v t, Reads s ea v t) ∨ ∃ f, ReadFaults s ea f := by
  by_cases h1 : ea.toNat ≤ 0x1FFF
  · exact .inl ⟨_, _, .inl ⟨h1, rfl, rfl⟩⟩
  by_cases h2 : ea.toNat ≤ 0x3FFF
  · exact .inl ⟨_, _, .inr (.inl ⟨by omega, h2, rfl, rfl⟩)⟩
  by_cases h3 : ea.toNat = 0x4014
  · exact .inr ⟨_, .inl ⟨h3, rfl⟩⟩
  by_cases h4 : ea.toNat ≤ 0x401F
  · exact .inr ⟨_, .inr (.inl ⟨by omega, h4, h3, rfl⟩)⟩
  by_cases h5 : ea.toNat ≤ 0x7FFF
  · exact .inr ⟨_, .inr (.inr (.inl ⟨by omega, h5, rfl⟩))⟩
  by_cases h6 : programOffset s ea < s.cart.prgCount * 16384
  · exact .inl ⟨_, _, .inr (.inr ⟨by omega, h6, rfl, rfl⟩)⟩
  · exact .inr ⟨_, .inr (.inr (.inr ⟨by omega, by omega, rfl⟩))⟩

theorem busRead_eq_ok {s t : State} {ea : Word} {v : Byte} : busRead ea s = .ok (v, t) ↔ Reads s ea v t := by
  refine ⟨fun h => ?_, busRead_of_reads⟩
  rcases reads_or_readFaults s ea with ⟨v', t', h'⟩ | ⟨f, h'⟩
  · rw [busRead_of_reads h'] at h; cases h; exact h'
  · rw [busRead_of_readFaults h'] at h; cases h

theorem busRead_eq_error {s : State} {ea : Word} {f : Fault} : busRead ea s = .error f ↔ ReadFaults s ea f := by
  refine ⟨fun h => ?_, busRead_of_readFaults⟩
  rcases reads_or_readFaults s ea with ⟨v', t', h'⟩ | ⟨f', h'⟩
  · rw [busRead_of_reads h'] at h; cases h
  · rw [busRead_of_readFaults h'] at h; cases h; exact h'

/-- All a read can do to the state: nothing, or record one `VidRead` (20_memory.md R63). -/
theorem reads_state {s t : State} {ea : Word} {v : Byte} (h : Reads s ea v t) :
    t = s ∨ ∃ slot, t = s.afterVidRead slot := by
  rcases h with ⟨_, _, rfl⟩ | ⟨_, _, _, rfl⟩ | ⟨_, _, _, rfl⟩
  · exact .inl rfl
  · exact .inr ⟨_, rfl⟩
  · exact .inl rfl

/-- The call a read makes is recorded, at the end (20_memory.md R64). -/
theorem reads_events {s t : State} {ea : Word} {v : Byte} (h : Reads s ea v t) : t.events = s.events ++ readCalls ea := by
  unfold readCalls
  rcases h with ⟨h, _, rfl⟩ | ⟨h1, h2, _, rfl⟩ | ⟨h, _, _, rfl⟩
  · rw [if_neg (by omega), List.append_nil]
  · rw [if_pos ⟨h1, h2⟩]
  · rw [if_neg (by omega), List.append_nil]

/-- A read changes no register and no flag. -/
theorem reads_keeps {s t : State} {ea : Word} {v : Byte} (h : Reads s ea v t) : t.p = s.p ∧ t.a = s.a := by
  rcases reads_state h with rfl | ⟨slot, rfl⟩ <;> exact ⟨rfl, rfl⟩

/-- A zero-page byte is what a bus read of its address answers; such a read cannot fault and changes nothing (20_memory.md R52). -/
theorem busRead_zeroPage (s : State) (zp : Byte) : busRead (zext16 zp) s = .ok (zeroPageByte s zp, s) := by
  have e : (zext16 zp).toNat = zp.toNat := by simp only [zext16, BitVec.toNat_setWidth]; omega
  have lt := zp.isLt
  apply busRead_of_reads
  refine .inl ⟨by omega, ?_, rfl⟩
  rw [e, Nat.mod_eq_of_lt (by omega)]; rfl

/-! ### Writes -/

/-- No supported mapper has a control address (20_memory.md R58, R70). -/
theorem busWrite_cart {addr : Word} (v : Byte) (s : State) (h : 0x4020 ≤ addr.toNat) :
    busWrite addr v s = .error (.readOnlyViolation addr) := by
  unfold busWrite mapperStrategy
  rw [route_cart h]
  by_cases hm : s.cart.mapperId = 0
  · simp only [if_pos hm]; rfl
  · simp only [if_neg hm]

theorem busWrite_of_writes {s t : State} {ea : Word} {v : Byte} (h : Writes s ea v t) : busWrite ea v s = .ok t := by
  rcases h with ⟨h, rfl⟩ | ⟨h1, h2, rfl⟩ | ⟨h, rfl⟩
  · simp only [busWrite, route_ram h]
  · simp only [busWrite, route_vid h1 h2]; rfl
  · simp only [busWrite, route_oamDma h]; rfl

theorem busWrite_of_writeFaults {s : State} {ea : Word} {v : Byte} {f : Fault} (h : WriteFaults ea f) :
    busWrite ea v s = .error f := by
  rcases h with ⟨h1, h2, h3, rfl⟩ | ⟨h, rfl⟩
  · by_cases h4 : ea.toNat ≤ 0x4017
    · simp only [busWrite, route_audioIo h1 h4 h3]
    · simp only [busWrite, route_testMode (show 0x4018 ≤ ea.toNat by omega) h2]
  · exact busWrite_cart v s h

theorem writes_or_writeFaults (s : State) (ea : Word) (v : Byte) : (∃ t, Writes s ea v t) ∨ ∃ f, WriteFaults ea f := by
  by_cases h1 : ea.toNat ≤ 0x1FFF
  · exact .inl ⟨_, .inl ⟨h1, rfl⟩⟩
  by_cases h2 : ea.toNat ≤ 0x3FFF
  · exact .inl ⟨_, .inr (.inl ⟨by omega, h2, rfl⟩)⟩
  by_cases h3 : ea.toNat = 0x4014
  · exact .inl ⟨_, .inr (.inr ⟨h3, rfl⟩)⟩
  by_cases h4 : ea.toNat ≤ 0x401F
  · exact .inr ⟨_, .inl ⟨by omega, h4, h3, rfl⟩⟩
  · exact .inr ⟨_, .inr ⟨by omega, rfl⟩⟩

theorem busWrite_eq_ok {s t : State} {ea : Word} {v : Byte} : busWrite ea v s = .ok t ↔ Writes s ea v t := by
  refine ⟨fun h => ?_, busWrite_of_writes⟩
  rcases writes_or_writeFaults s ea v with ⟨t', h'⟩ | ⟨f, h'⟩
  · rw [busWrite_of_writes h'] at h; cases h; exact h'
  · rw [busWrite_of_writeFaults h'] at h; cases h

theorem busWrite_eq_error {s : State} {ea : Word} {v : Byte} {f : Fault} : busWrite ea v s = .error f ↔ WriteFaults ea f := by
  refine ⟨fun h => ?_, busWrite_of_writeFaults⟩
  rcases writes_or_writeFaults s ea v with ⟨t', h'⟩ | ⟨f', h'⟩
  · rw [busWrite_of_writes h'] at h; cases h
  · rw [busWrite_of_writeFaults h'] at h; cases h; exact h'

/-- All a write can do to the state: change one RAM cell, or hand over one event (20_memory.md R63). -/
theorem writes_state {s t : State} {ea : Word} {v : Byte} (h : Writes s ea v t) :
    (t = { s with ram := Memory.write s.ram (ea.toNat % 2048) v } ∧ ea.toNat ≤ 0x1FFF) ∨ ∃ e, t = s.emit e := by
  rcases h with ⟨h, rfl⟩ | ⟨_, _, rfl⟩ | ⟨_, rfl⟩
  · exact .inl ⟨rfl, h⟩
  · exact .inr ⟨_, rfl⟩
  · exact .inr ⟨_, rfl⟩

/-- The call a write makes is recorded, at the end (20_memory.md R64). -/
theorem writes_events {s t : State} {ea : Word} {v : Byte} (h : Writes s ea v t) :
    t.events = s.events ++ writeCalls ea v := by
  unfold writeCalls
  rcases h with ⟨h, rfl⟩ | ⟨h1, h2, rfl⟩ | ⟨h, rfl⟩
  · rw [if_neg (by omega), if_neg (by omega), List.append_nil]
  · rw [if_pos ⟨h1, h2⟩]
  · rw [if_neg (by omega), if_pos h]

/-- A write keeps the canonical form of RAM. -/
theorem busWrite_ramWf {s t : State} {ea : Word} {v : Byte} (h : busWrite ea v s = .ok t) (hw : s.ram.wf = true) :
    t.ram.wf = true := by
  rcases writes_state (busWrite_eq_ok.1 h) with ⟨rfl, _⟩ | ⟨e, rfl⟩
  · exact Memory.write_wf _ _ hw
  · exact hw

/-- The memories of `State.reset` have the canonical form. -/
theorem reset_memory_wf :
    State.reset.ram.wf = true ∧ State.reset.cart.prg.wf = true ∧ State.reset.cart.chr.wf = true := ⟨rfl, rfl, rfl⟩

/-! ### Looking at a byte without an access -/

theorem peek_ram (s : State) {addr : Word} (h : addr.toNat ≤ 0x1FFF) :
    peek s addr = some (Memory.read s.ram (addr.toNat % 2048)) := by
  simp only [peek, route_ram h]

theorem peek_high (s : State) {addr : Word} (h : 0x8000 ≤ addr.toNat) :
    peek s addr = if programOffset s addr < s.cart.prgCount * 16384 then
      some (Memory.read s.cart.prg (programOffset s addr)) else none := by
  simp only [peek, route_cart (show 0x4020 ≤ addr.toNat by omega), cartRead_high s h]
  by_cases h2 : programOffset s addr < s.cart.prgCount * 16384
  · simp only [if_pos h2]
  · simp only [if_neg h2]

theorem peek_middle (s : State) {addr : Word} (h1 : 0x2000 ≤ addr.toNat) (h2 : addr.toNat ≤ 0x7FFF) :
    peek s addr = none := by
  by_cases a : addr.toNat ≤ 0x3FFF
  · simp only [peek, route_vid h1 a]
  by_cases b : addr.toNat = 0x4014
  · simp only [peek, route_oamDma b]
  by_cases c : addr.toNat ≤ 0x4017
  · simp only [peek, route_audioIo (by omega) c b]
  by_cases d : addr.toNat ≤ 0x401F
  · simp only [peek, route_testMode (by omega) d]
  · simp only [peek, route_cart (show 0x4020 ≤ addr.toNat by omega), cartRead_low s h2]

/-- What a byte of memory reads as depends on RAM, the cartridge and the slots alone. -/
theorem peek_congr {s t : State} (hr : t.ram = s.ram) (hc : t.cart = s.cart) (hb : t.banks = s.banks) (addr : Word) :
    peek t addr = peek s addr := by
  simp only [peek, cartRead, hr, hc, hb]

/-- Outside RAM, what a byte of memory reads as depends on the cartridge and the slots alone. -/
theorem peek_notram {s t : State} (hc : t.cart = s.cart) (hb : t.banks = s.banks) (addr : Word)
    (h : 0x2000 ≤ addr.toNat) : peek t addr = peek s addr := by
  by_cases h2 : addr.toNat ≤ 0x7FFF
  · rw [peek_middle t h h2, peek_middle s h h2]
  · rw [peek_high t (by omega), peek_high s (by omega)]
    have o : programOffset t addr = programOffset s addr := by simp only [programOffset, hb]
    rw [o, hc]

/-- Where a byte is stored in RAM or program storage, a bus read answers it and changes nothing. -/
theorem busRead_of_peek {s : State} {addr : Word} {v : Byte} (h : peek s addr = some v) : busRead addr s = .ok (v, s) := by
  unfold peek at h
  unfold busRead
  split at h
  · rename_i hr; simp only [hr]; cases h; rfl
  · rename_i hr; simp only [hr]
    cases hc : cartRead addr s <;> simp_all
  · cases h

end Sys2Proof.Machine
end

