-- ==== Sys2Proof/Laws/Decode.lean ====
section
/-! SUPPORT. The laws of the decoder and the encoder. -/

namespace Sys2Proof

theorem toNat_wordOfBytes (lo hi : Byte) : (wordOfBytes lo hi).toNat = hi.toNat * 256 + lo.toNat := by
  simp only [wordOfBytes, BitVec.toNat_ofNat]; omega

@[simp] theorem lowByte_wordOfBytes (lo hi : Byte) : lowByte (wordOfBytes lo hi) = lo := by
  apply BitVec.eq_of_toNat_eq
  simp only [lowByte, BitVec.toNat_ofNat, toNat_wordOfBytes]; omega

@[simp] theorem highByte_wordOfBytes (lo hi : Byte) : highByte (wordOfBytes lo hi) = hi := by
  apply BitVec.eq_of_toNat_eq
  simp only [highByte, BitVec.toNat_ofNat, toNat_wordOfBytes]; omega

/-- A word is put together again from its two bytes. -/
@[simp] theorem wordOfBytes_lowByte_highByte (w : Word) : wordOfBytes (lowByte w) (highByte w) = w := by
  apply BitVec.eq_of_toNat_eq
  simp only [toNat_wordOfBytes, highByte, lowByte, BitVec.toNat_ofNat]; omega

/-- The two transcriptions of the table of 30_encoding.md R108 agree: a pair is well formed exactly when it has a form. -/
theorem dispatch_isSome_eq_pairWellFormed (op : Op) (mode : Mode) :
    (dispatch op mode).isSome = pairWellFormed op mode := by
  cases op <;> cases mode <;> rfl

/-- Every term of `Instr` is well formed: operand widths stand in the types. -/
theorem Instr.wellFormed_all (i : Instr) : i.wellFormed = true := by
  cases i <;> rfl

/-- How many operand bytes a form takes. -/
def Form.operands : Form → Nat
  | .f1 _ => 0
  | .f2 _ => 1
  | .f3 _ => 2

/-- A form takes as many bytes as the length law says (30_encoding.md R107, R121). -/
theorem dispatch_length {op : Op} {mode : Mode} {form : Form} (h : dispatch op mode = some form) :
    form.operands + 1 = instrLength op mode := by
  cases op <;> cases mode <;> first | (cases h; rfl) | cases h

/-- A form makes instructions of the operation and the mode it was looked up by (30_encoding.md R108). -/
theorem dispatch_makes {op : Op} {mode : Mode} {form : Form} (h : dispatch op mode = some form) :
    match form with
    | .f1 i => i.op = op ∧ i.mode = mode
    | .f2 make => ∀ b, (make b).op = op ∧ (make b).mode = mode
    | .f3 make => ∀ w, (make w).op = op ∧ (make w).mode = mode := by
  cases op <;> cases mode <;> first
    | (cases h; exact ⟨rfl, rfl⟩)
    | (cases h; exact fun _ => ⟨rfl, rfl⟩)
    | cases h

theorem dispatch_of_classifyOpcode {b : Byte} {form : Form} (h : classifyOpcode b = .implemented form) :
    ∃ op mode, dispatch op mode = some form := by
  unfold classifyOpcode at h
  split at h
  · cases h
  · rename_i op mode _ _
    split at h
    · cases h
    · rename_i hd; cases h; exact ⟨op, mode, hd⟩

/-- The decoder gives an instruction's opcode byte its operation, its mode and its length (30_encoding.md R102 to R107). -/
theorem decodeOpcode_opcode (i : Instr) : decodeOpcode i.opcode = some (i.op, i.mode, instrLength i.op i.mode) := by
  cases i <;> simp only [Instr.opcode, Instr.op, Instr.mode] <;> decide

theorem classifyOpcode_opcode (i : Instr) {form : Form} (h : dispatch i.op i.mode = some form) :
    classifyOpcode i.opcode = .implemented form := by
  simp only [classifyOpcode, decodeOpcode_opcode, h]

theorem classifyOpcode_illegal {b : Byte} (h : decodeOpcode b = none) : classifyOpcode b = .illegal := by
  simp only [classifyOpcode, h]

theorem decodeOpcode_length {b : Byte} {op : Op} {mode : Mode} {len : Nat} (h : decodeOpcode b = some (op, mode, len)) :
    len = instrLength op mode := by
  unfold decodeOpcode at h
  split at h
  · cases h
  split at h
  · cases h
  cases h; rfl

theorem classifyOpcode_implemented {b : Byte} {op : Op} {mode : Mode} {len : Nat}
    (h : decodeOpcode b = some (op, mode, len)) (hd : (dispatch op mode).isSome = true) :
    ∃ form, classifyOpcode b = .implemented form ∧ form.operands + 1 = len := by
  obtain ⟨form, hf⟩ := Option.isSome_iff_exists.1 hd
  exact ⟨form, by simp only [classifyOpcode, h, hf], by rw [dispatch_length hf, decodeOpcode_length h]⟩

theorem classifyOpcode_unimplemented {b : Byte} {op : Op} {mode : Mode} (h : decode [b] = .unimplemented op mode b) :
    classifyOpcode b = .unimplemented op mode := by
  cases hc : classifyOpcode b with
  | illegal => simp [decode, hc] at h
  | unimplemented o m => simp [decode, hc] at h; simp [h]
  | implemented form => cases form <;> simp [decode, hc] at h

theorem decode_nil : decode [] = .truncated := rfl

theorem decode_illegal {b : Byte} (rest : List Byte) (h : classifyOpcode b = .illegal) :
    decode (b :: rest) = .illegalOpcode b := by simp [decode, h]

theorem decode_unimplemented {b : Byte} {op : Op} {mode : Mode} (rest : List Byte)
    (h : classifyOpcode b = .unimplemented op mode) : decode (b :: rest) = .unimplemented op mode b := by
  simp [decode, h]

theorem decode_f1 {b : Byte} {i : Instr} (rest : List Byte) (h : classifyOpcode b = .implemented (.f1 i)) :
    decode (b :: rest) = .instr i rest := by simp [decode, h]

theorem decode_f2 {b : Byte} {make : Byte → Instr} (b1 : Byte) (rest : List Byte)
    (h : classifyOpcode b = .implemented (.f2 make)) : decode (b :: b1 :: rest) = .instr (make b1) rest := by
  simp [decode, h]

theorem decode_f3 {b : Byte} {make : Word → Instr} (b1 b2 : Byte) (rest : List Byte)
    (h : classifyOpcode b = .implemented (.f3 make)) :
    decode (b :: b1 :: b2 :: rest) = .instr (make (wordOfBytes b1 b2)) rest := by
  simp [decode, h]

/-- What the decoder reads when it reads an instruction: the bytes are an opcode of one of the three formats with its operand
bytes (30_encoding.md R100). -/
theorem decode_instr {bytes rest : List Byte} {i : Instr} (h : decode bytes = .instr i rest) :
    (∃ b, bytes = b :: rest ∧ classifyOpcode b = .implemented (.f1 i)) ∨
    (∃ b b1 make, bytes = b :: b1 :: rest ∧ classifyOpcode b = .implemented (.f2 make) ∧ i = make b1) ∨
    (∃ b b1 b2 make, bytes = b :: b1 :: b2 :: rest ∧ classifyOpcode b = .implemented (.f3 make) ∧
      i = make (wordOfBytes b1 b2)) := by
  cases bytes with
  | nil => cases h
  | cons b tl =>
    cases hc : classifyOpcode b with
    | illegal => simp [decode, hc] at h
    | unimplemented op mode => simp [decode, hc] at h
    | implemented form =>
      cases form with
      | f1 j =>
        simp only [decode, hc, Decoded.instr.injEq] at h
        exact .inl ⟨b, by rw [h.2], by rw [hc, h.1]⟩
      | f2 make =>
        cases tl with
        | nil => simp [decode, hc] at h
        | cons b1 tl =>
          simp only [decode, hc, Decoded.instr.injEq] at h
          exact .inr (.inl ⟨b, b1, make, by rw [h.2], hc, h.1.symm⟩)
      | f3 make =>
        cases tl with
        | nil => simp [decode, hc] at h
        | cons b1 tl =>
          cases tl with
          | nil => simp [decode, hc] at h
          | cons b2 tl =>
            simp only [decode, hc, Decoded.instr.injEq] at h
            exact .inr (.inr ⟨b, b1, b2, make, by rw [h.2], hc, h.1.symm⟩)

/-- The decoder consumes as many bytes as the length law says (30_encoding.md R107, R121). -/
theorem decode_length {bytes rest : List Byte} {i : Instr} (h : decode bytes = .instr i rest) :
    bytes.length = instrLength i.op i.mode + rest.length := by
  rcases decode_instr h with ⟨b, rfl, hc⟩ | ⟨b, b1, make, rfl, hc, rfl⟩ | ⟨b, b1, b2, make, rfl, hc, rfl⟩ <;>
    obtain ⟨op, mode, hd⟩ := dispatch_of_classifyOpcode hc <;>
    have hl := dispatch_length hd <;> have hm := dispatch_makes hd
  · rw [hm.1, hm.2, ← hl]; simp [Form.operands, Nat.add_comm]
  · rw [(hm b1).1, (hm b1).2, ← hl]; simp only [Form.operands, List.length_cons]; omega
  · rw [(hm (wordOfBytes b1 b2)).1, (hm (wordOfBytes b1 b2)).2, ← hl]
    simp only [Form.operands, List.length_cons]; omega

end Sys2Proof
end

