-- ==== Sys2Proof/Laws/Fetch.lean ====
section
/-! SUPPORT. The laws of the instruction stream: what a fetch reads and what it changes. -/

namespace Sys2Proof.Machine

theorem fetchCalls_add (n : Nat) : ∀ (m : Nat) (pc : Word),
    fetchCalls pc (m + n) = fetchCalls pc m ++ fetchCalls (pc + BitVec.ofNat 16 m) n
  | 0, pc => by simp [fetchCalls]
  | m + 1, pc => by
    have e : pc + 1 + BitVec.ofNat 16 m = pc + BitVec.ofNat 16 (m + 1) := by
      rw [BitVec.add_assoc]; congr 1
      apply BitVec.eq_of_toNat_eq; simp [Nat.add_comm]
    rw [show m + 1 + n = m + n + 1 by omega, fetchCalls, fetchCalls, fetchCalls_add n m, e, List.append_assoc]

/-- All a fetch of `n` bytes can change: `PC`, and the model's record of the collaborator, which gains exactly the calls for
those bytes (20_memory.md R63, R64). -/
def Fetched (n : Nat) (s t : State) : Prop :=
  t = { s with
    pc := s.pc + BitVec.ofNat 16 n
    events := s.events ++ fetchCalls s.pc n
    vidAnswers := t.vidAnswers
    vidReads := t.vidReads }

theorem Fetched.zero (s : State) : Fetched 0 s s := by simp [Fetched, fetchCalls]

theorem Fetched.trans {m n : Nat} {s t u : State} (h1 : Fetched m s t) (h2 : Fetched n t u) : Fetched (m + n) s u := by
  unfold Fetched at *
  rw [h2, h1, fetchCalls_add]
  simp [BitVec.add_assoc, BitVec.ofNat_add]

theorem Fetched.pc {n : Nat} {s t : State} (h : Fetched n s t) : t.pc = s.pc + BitVec.ofNat 16 n := by
  unfold Fetched at h; rw [h]

theorem Fetched.events {n : Nat} {s t : State} (h : Fetched n s t) : t.events = s.events ++ fetchCalls s.pc n := by
  unfold Fetched at h; rw [h]

/-- A fetch keeps the rest of the core (20_memory.md R63). -/
theorem Fetched.keeps {n : Nat} {s t : State} (h : Fetched n s t) :
    t.a = s.a ∧ t.x = s.x ∧ t.y = s.y ∧ t.sp = s.sp ∧ t.p = s.p ∧ t.ram = s.ram ∧ t.banks = s.banks ∧ t.chrRam = s.chrRam ∧
      t.cart = s.cart ∧ t.fault = s.fault ∧ t.resetDone = s.resetDone := by
  unfold Fetched at h
  rw [h]
  exact ⟨rfl, rfl, rfl, rfl, rfl, rfl, rfl, rfl, rfl, rfl, rfl⟩

/-- `Fetch8` reads at `PC` and advances it by one (00_scope.md R8). -/
theorem fetch8_of_reads {s u : State} {b : Byte} (h : Reads s s.pc b u) : fetch8 s = .ok (b, u.setPc (u.pc + 1)) := by
  simp only [fetch8, busRead_of_reads h]

theorem fetch8_ok {s t : State} {b : Byte} (h : fetch8 s = .ok (b, t)) :
    ∃ u, Reads s s.pc b u ∧ t = u.setPc (s.pc + 1) := by
  unfold fetch8 at h
  split at h
  · cases h
  · rename_i b' u hr
    cases h
    have hr := busRead_eq_ok.1 hr
    refine ⟨u, hr, ?_⟩
    rcases reads_state hr with rfl | ⟨slot, rfl⟩ <;> rfl

theorem fetch8_error {s : State} {f : Fault} : fetch8 s = .error f ↔ ReadFaults s s.pc f := by
  rw [← busRead_eq_error]
  unfold fetch8
  split
  · rename_i h; rw [h]
  · rename_i h; rw [h]; simp

theorem fetch8_fetched {s t : State} {b : Byte} (h : fetch8 s = .ok (b, t)) : Fetched 1 s t := by
  obtain ⟨u, hr, rfl⟩ := fetch8_ok h
  have he := reads_events hr
  simp only [Fetched, fetchCalls, List.append_nil]
  rcases reads_state hr with rfl | ⟨slot, rfl⟩
  · rw [← he]; rfl
  · rw [← he]; rfl

theorem fetchBytes_cons {n : Nat} {s t u : State} {b : Byte} {bs : List Byte} (h1 : fetch8 s = .ok (b, t))
    (h2 : fetchBytes n t = .ok (bs, u)) : fetchBytes (n + 1) s = .ok (b :: bs, u) := by
  simp only [fetchBytes, h1, h2]

theorem fetchBytes_succ {n : Nat} {s u : State} {bs : List Byte} (h : fetchBytes (n + 1) s = .ok (bs, u)) :
    ∃ b bs' t, bs = b :: bs' ∧ fetch8 s = .ok (b, t) ∧ fetchBytes n t = .ok (bs', u) := by
  unfold fetchBytes at h
  split at h
  · cases h
  · rename_i b t h1
    split at h
    · cases h
    · rename_i bs' u' h2
      cases h
      exact ⟨b, bs', t, rfl, h1, h2⟩

theorem fetchBytes_length : ∀ {n : Nat} {s t : State} {bs : List Byte}, fetchBytes n s = .ok (bs, t) → bs.length = n
  | 0, _, _, _, h => by cases h; rfl
  | n + 1, s, t, bs, h => by
    obtain ⟨b, bs', u, rfl, _, h2⟩ := fetchBytes_succ h
    simp [fetchBytes_length h2]

theorem fetchBytes_fetched : ∀ {n : Nat} {s t : State} {bs : List Byte}, fetchBytes n s = .ok (bs, t) → Fetched n s t
  | 0, s, _, _, h => by cases h; exact Fetched.zero s
  | n + 1, s, t, bs, h => by
    obtain ⟨b, bs', u, rfl, h1, h2⟩ := fetchBytes_succ h
    rw [Nat.add_comm]
    exact (fetch8_fetched h1).trans (fetchBytes_fetched h2)

/-- Bytes stored in RAM or program storage from `PC` on are fetched as they stand, and nothing but `PC` changes. -/
theorem fetchBytes_of_peek : ∀ (bytes : List Byte) (s : State),
    (∀ k, k < bytes.length → peek s (s.pc + BitVec.ofNat 16 k) = bytes[k]?) →
    fetchBytes bytes.length s = .ok (bytes, { s with pc := s.pc + BitVec.ofNat 16 bytes.length })
  | [], s, _ => by simp [fetchBytes]
  | b :: rest, s, h => by
    have next : ∀ k, s.pc + 1 + BitVec.ofNat 16 k = s.pc + BitVec.ofNat 16 (k + 1) := by
      intro k
      rw [BitVec.add_assoc]; congr 1
      apply BitVec.eq_of_toNat_eq; simp [Nat.add_comm]
    have h0 := h 0 (by simp)
    simp only [BitVec.add_zero, List.getElem?_cons_zero] at h0
    have hf : fetch8 s = .ok (b, s.setPc (s.pc + 1)) := by simp only [fetch8, busRead_of_peek h0]
    have ih := fetchBytes_of_peek rest (s.setPc (s.pc + 1)) (fun k hk => by
      have hk' := h (k + 1) (by simpa using hk)
      rw [List.getElem?_cons_succ] at hk'
      rw [← hk', ← next k]
      exact peek_congr rfl rfl rfl _)
    rw [List.length_cons, fetchBytes_cons hf ih]
    simp only [State.setPc, next]

/-- When the bytes at `PC` are those of one instruction, the fetch answers it. -/
theorem fetchInstr_of_decode {n : Nat} {s t : State} {bytes : List Byte} {i : Instr}
    (hf : fetchBytes n s = .ok (bytes, t)) (hd : decode bytes = .instr i []) : fetchInstr s = .ok (i, t) := by
  have hn := fetchBytes_length hf
  rcases decode_instr hd with ⟨b, rfl, hc⟩ | ⟨b, b1, make, rfl, hc, rfl⟩ | ⟨b, b1, b2, make, rfl, hc, rfl⟩ <;> subst hn
  · obtain ⟨_, _, u, h, h1, h2⟩ := fetchBytes_succ hf
    cases h; cases h2
    simp only [fetchInstr, h1, hc]
  · obtain ⟨_, _, u, h, h1, h2⟩ := fetchBytes_succ hf
    cases h
    obtain ⟨_, _, w, h, h3, h4⟩ := fetchBytes_succ h2
    cases h; cases h4
    simp only [fetchInstr, h1, hc, h3]
  · obtain ⟨_, _, u, h, h1, h2⟩ := fetchBytes_succ hf
    cases h
    obtain ⟨_, _, w, h, h3, h4⟩ := fetchBytes_succ h2
    cases h
    obtain ⟨_, _, x, h, h5, h6⟩ := fetchBytes_succ h4
    cases h; cases h6
    simp only [fetchInstr, h1, hc, h3, h5]

/-- Where the fetch answers an instruction, the bytes at `PC` are those of that instruction. -/
theorem fetchInstr_ok {s t : State} {i : Instr} (h : fetchInstr s = .ok (i, t)) :
    ∃ n bytes, fetchBytes n s = .ok (bytes, t) ∧ decode bytes = .instr i [] := by
  unfold fetchInstr at h
  split at h
  · cases h
  rename_i b s1 h1
  split at h
  · cases h
  · cases h
  · rename_i hc
    cases h
    exact ⟨1, [b], fetchBytes_cons h1 rfl, decode_f1 [] hc⟩
  · rename_i make hc
    split at h
    · cases h
    rename_i b1 s2 h2
    cases h
    exact ⟨2, [b, b1], fetchBytes_cons h1 (fetchBytes_cons h2 rfl), decode_f2 b1 [] hc⟩
  · rename_i make hc
    split at h
    · cases h
    rename_i b1 s2 h2
    split at h
    · cases h
    rename_i b2 s3 h3
    cases h
    exact ⟨3, [b, b1, b2], fetchBytes_cons h1 (fetchBytes_cons h2 (fetchBytes_cons h3 rfl)), decode_f3 b1 b2 [] hc⟩

/-- The instruction fetched has the length the fetch read, and nothing but `PC` and the record changed (30_encoding.md R121). -/
theorem fetchInstr_fetched {s t : State} {i : Instr} (h : fetchInstr s = .ok (i, t)) :
    Fetched (instrLength i.op i.mode) s t := by
  obtain ⟨n, bytes, hf, hd⟩ := fetchInstr_ok h
  have hl := fetchBytes_length hf
  rw [decode_length hd, List.length_nil, Nat.add_zero] at hl
  rw [hl]
  exact fetchBytes_fetched hf

/-- An opcode that is no instruction faults before any operand byte is read (60_exceptions.md R232, R233). -/
theorem fetchInstr_illegal {s t : State} {b : Byte} (h : fetch8 s = .ok (b, t)) (hc : classifyOpcode b = .illegal) :
    fetchInstr s = .error (.illegalOpcode b s.pc, t) := by
  simp only [fetchInstr, h, hc]

theorem fetchInstr_unimplemented {s t : State} {b : Byte} {op : Op} {mode : Mode} (h : fetch8 s = .ok (b, t))
    (hc : classifyOpcode b = .unimplemented op mode) :
    fetchInstr s = .error (.unimplementedInstruction op mode b s.pc, t) := by
  simp only [fetchInstr, h, hc]

theorem fetchInstr_opcodeFault {s : State} {f : Fault} (h : fetch8 s = .error f) : fetchInstr s = .error (f, s) := by
  simp only [fetchInstr, h]

/-- A fetch that faults: a byte of the stream cannot be read, or the opcode is no instruction (60_exceptions.md R241). -/
theorem fetchInstr_error {s r : State} {f : Fault} (h : fetchInstr s = .error (f, r)) :
    (∃ n bytes, fetchBytes n s = .ok (bytes, r) ∧ ReadFaults r r.pc f) ∨
    (∃ b, fetchBytes 1 s = .ok ([b], r) ∧ f = .illegalOpcode b s.pc) ∨
    ∃ op mode b, fetchBytes 1 s = .ok ([b], r) ∧ f = .unimplementedInstruction op mode b s.pc := by
  unfold fetchInstr at h
  split at h
  · cases h
    exact .inl ⟨0, [], rfl, fetch8_error.1 (by assumption)⟩
  rename_i b s1 h1
  split at h
  · cases h; exact .inr (.inl ⟨b, fetchBytes_cons h1 rfl, rfl⟩)
  · cases h; exact .inr (.inr ⟨_, _, b, fetchBytes_cons h1 rfl, rfl⟩)
  · cases h
  · split at h
    · cases h
      exact .inl ⟨1, [b], fetchBytes_cons h1 rfl, fetch8_error.1 (by assumption)⟩
    · cases h
  · split at h
    · cases h
      exact .inl ⟨1, [b], fetchBytes_cons h1 rfl, fetch8_error.1 (by assumption)⟩
    rename_i b1 s2 h2
    split at h
    · cases h
      exact .inl ⟨2, [b, b1], fetchBytes_cons h1 (fetchBytes_cons h2 rfl), fetch8_error.1 (by assumption)⟩
    · cases h

/-! ### The step -/

theorem State.stepRefusal_eq_none {s : State} : s.stepRefusal = none ↔ s.Ready := by
  unfold State.stepRefusal State.Ready
  cases s.fault <;> simp

theorem step_of_fetch {s t : State} {i : Instr} (hs : s.Ready) (h : fetchInstr s = .ok (i, t)) :
    step s = exec i t := by
  simp only [step, State.stepRefusal_eq_none.2 hs, h]

theorem step_of_fetchFault {s r : State} {f : Fault} (hs : s.Ready) (h : fetchInstr s = .error (f, r)) :
    step s = .fault f := by
  simp only [step, State.stepRefusal_eq_none.2 hs, h]

theorem step_latched {s : State} {f : Fault} (h : s.fault = some f) : step s = .refused .faultLatched := by
  simp only [step, State.stepRefusal, h]

theorem step_neverReset {s : State} (hf : s.fault = none) (h : s.resetDone = false) : step s = .refused .neverReset := by
  simp [step, State.stepRefusal, hf, h]

/-- A step that completes is the execution of the instruction fetched. -/
theorem step_next {s t : State} (h : step s = .next t) :
    s.Ready ∧ ∃ i u, fetchInstr s = .ok (i, u) ∧ exec i u = .next t := by
  unfold step at h
  split at h
  · cases h
  rename_i hs
  split at h
  · cases h
  rename_i i u hi
  exact ⟨State.stepRefusal_eq_none.1 hs, i, u, hi, h⟩

/-- A step that faults: its fetch faults, or the execution of the instruction fetched does. -/
theorem step_fault {s : State} {f : Fault} (h : step s = .fault f) :
    s.Ready ∧ ((∃ r, fetchInstr s = .error (f, r)) ∨ ∃ i u, fetchInstr s = .ok (i, u) ∧ exec i u = .fault f) := by
  unfold step at h
  split at h
  · cases h
  rename_i hs
  refine ⟨State.stepRefusal_eq_none.1 hs, ?_⟩
  split at h
  · rename_i f' r hf
    cases h
    exact .inl ⟨r, hf⟩
  · rename_i i u hi
    exact .inr ⟨i, u, hi, h⟩

end Sys2Proof.Machine
end

