-- ==== Sys2Proof/Laws/Exec.lean ====
section
/-! SUPPORT. What an instruction can do, said once: it reads one byte and applies its effect, or writes one byte, or changes
registers only. -/

namespace Sys2Proof.Machine

/-- The effect of an operation that reads a data byte (40_load.md R140, R150, R160; 42_logic_compare.md R190, R200). -/
def readEffect : Op → Byte → State → State
  | .lda => loadA
  | .ldx => loadX
  | .ldy => loadY
  | .and => andA
  | .cmp => cmpA
  | .sta | .stx | .sty | .beq | .txs | .cld | .sei => fun _ s => s

theorem exec_load {i : Instr} {s : State} {ea : Word} (h : loadAddress i s = some ea) :
    exec i s = readThen ea (readEffect i.op) s := by
  cases i <;> simp only [loadAddress, Option.some.injEq, reduceCtorEq] at h <;> subst h <;> rfl

theorem exec_store {i : Instr} {s : State} {ea : Word} (h : storeAddress i s = some ea) :
    exec i s = storeAt ea (storedByte i.op s) s := by
  cases i <;> simp only [storeAddress, Option.some.injEq, reduceCtorEq] at h <;> subst h <;> rfl

theorem readThen_of_reads {s t : State} {ea : Word} {v : Byte} {effect : Byte → State → State} (h : Reads s ea v t) :
    readThen ea effect s = .next (effect v t) := by
  simp only [readThen, busRead_of_reads h]

theorem readThen_of_faults {s : State} {ea : Word} {f : Fault} {effect : Byte → State → State} (h : ReadFaults s ea f) :
    readThen ea effect s = .fault f := by
  simp only [readThen, busRead_of_readFaults h]

theorem readThen_next {s t : State} {ea : Word} {effect : Byte → State → State} (h : readThen ea effect s = .next t) :
    ∃ v u, Reads s ea v u ∧ t = effect v u := by
  unfold readThen at h
  split at h
  · cases h
  rename_i v u hr
  cases h
  exact ⟨v, u, busRead_eq_ok.1 hr, rfl⟩

theorem readThen_fault {s : State} {ea : Word} {f : Fault} {effect : Byte → State → State} (h : readThen ea effect s = .fault f) :
    ReadFaults s ea f := by
  unfold readThen at h
  split at h
  · cases h; exact busRead_eq_error.1 (by assumption)
  · cases h

theorem readThen_not_refused {s : State} {ea : Word} {r : Refusal} {effect : Byte → State → State} :
    readThen ea effect s ≠ .refused r := by
  unfold readThen; split <;> simp

theorem storeAt_of_writes {s t : State} {ea : Word} {v : Byte} (h : Writes s ea v t) : storeAt ea v s = .next t := by
  simp only [storeAt, busWrite_of_writes h]

theorem storeAt_of_faults {s : State} {ea : Word} {v : Byte} {f : Fault} (h : WriteFaults ea f) :
    storeAt ea v s = .fault f := by
  simp only [storeAt, busWrite_of_writeFaults h]

theorem storeAt_next {s t : State} {ea : Word} {v : Byte} (h : storeAt ea v s = .next t) : Writes s ea v t := by
  unfold storeAt at h
  split at h
  · cases h
  cases h
  exact busWrite_eq_ok.1 (by assumption)

theorem storeAt_fault {s : State} {ea : Word} {v : Byte} {f : Fault} (h : storeAt ea v s = .fault f) : WriteFaults ea f := by
  unfold storeAt at h
  split at h
  · cases h; exact busWrite_eq_error.1 (by assumption)
  · cases h

theorem storeAt_not_refused {s : State} {ea : Word} {v : Byte} {r : Refusal} : storeAt ea v s ≠ .refused r := by
  unfold storeAt; split <;> simp

/-- A zero-page load completes: its data read cannot fault (20_memory.md R52). -/
theorem readThen_zeroPage (s : State) (zp : Byte) (effect : Byte → State → State) :
    readThen (zext16 zp) effect s = .next (effect (zeroPageByte s zp) s) := by
  simp only [readThen, busRead_zeroPage]

/-- A zero-page store completes: its write cannot fault (20_memory.md R52). -/
theorem storeAt_zeroPage (s : State) (zp : Byte) (v : Byte) :
    storeAt (zext16 zp) v s = .next { s with ram := Memory.write s.ram zp.toNat v } := by
  have e : (zext16 zp).toNat = zp.toNat := by simp only [zext16, BitVec.toNat_setWidth]; omega
  have lt := zp.isLt
  have hw : Writes s (zext16 zp) v { s with ram := Memory.write s.ram ((zext16 zp).toNat % 2048) v } :=
    .inl ⟨by omega, rfl⟩
  rw [storeAt_of_writes hw, e, Nat.mod_eq_of_lt (by omega)]

/-- An instruction that neither reads nor writes a data byte completes, and changes registers, flags or `PC` only. -/
theorem exec_registers {i : Instr} {s : State} (hl : loadAddress i s = none) (hs : storeAddress i s = none) :
    ∃ a x y sp p pc, exec i s = .next { s with a := a, x := x, y := y, sp := sp, p := p, pc := pc } := by
  cases i <;> simp only [loadAddress, storeAddress, reduceCtorEq] at hl hs <;>
    first
    | exact ⟨_, _, _, _, _, _, rfl⟩
    | (rename_i off
       by_cases hz : s.p.z
       · exact ⟨_, _, _, _, _, _, by simp only [exec, execBeq, hz, if_true]; rfl⟩
       · exact ⟨s.a, s.x, s.y, s.sp, s.p, s.pc, by simp [exec, execBeq, hz]⟩)

/-- The three shapes of an execution that completes. -/
theorem exec_next {i : Instr} {s t : State} (h : exec i s = .next t) :
    (∃ ea v u, loadAddress i s = some ea ∧ Reads s ea v u ∧ t = readEffect i.op v u) ∨
    (∃ ea, storeAddress i s = some ea ∧ Writes s ea (storedByte i.op s) t) ∨
    (loadAddress i s = none ∧ storeAddress i s = none ∧
      ∃ a x y sp p pc, t = { s with a := a, x := x, y := y, sp := sp, p := p, pc := pc }) := by
  cases hl : loadAddress i s with
  | some ea =>
    rw [exec_load hl] at h
    obtain ⟨v, u, hr, rfl⟩ := readThen_next h
    exact .inl ⟨ea, v, u, rfl, hr, rfl⟩
  | none =>
    cases hs : storeAddress i s with
    | some ea =>
      rw [exec_store hs] at h
      exact .inr (.inl ⟨ea, rfl, storeAt_next h⟩)
    | none =>
      obtain ⟨a, x, y, sp, p, pc, he⟩ := exec_registers hl hs
      rw [he] at h
      cases h
      exact .inr (.inr ⟨rfl, rfl, a, x, y, sp, p, pc, rfl⟩)

/-- The two shapes of an execution that faults: its data read or its data write does. -/
theorem exec_fault {i : Instr} {s : State} {f : Fault} (h : exec i s = .fault f) :
    (∃ ea, loadAddress i s = some ea ∧ ReadFaults s ea f) ∨ ∃ ea, storeAddress i s = some ea ∧ WriteFaults ea f := by
  cases hl : loadAddress i s with
  | some ea =>
    rw [exec_load hl] at h
    exact .inl ⟨ea, rfl, readThen_fault h⟩
  | none =>
    cases hs : storeAddress i s with
    | some ea =>
      rw [exec_store hs] at h
      exact .inr ⟨ea, rfl, storeAt_fault h⟩
    | none =>
      obtain ⟨a, x, y, sp, p, pc, he⟩ := exec_registers hl hs
      rw [he] at h
      cases h

/-- Only STA, STX and STY store (41_store.md). -/
theorem storeAddress_op {i : Instr} {s : State} {ea : Word} (h : storeAddress i s = some ea) :
    i.op ∈ [Op.sta, Op.stx, Op.sty] := by
  cases i <;> simp only [storeAddress, reduceCtorEq] at h <;> simp [Instr.op]

/-- What no instruction touches: the cartridge, the bank slots, `CHR_RAM`, the latch, the mark that
`reset()` has run (10_state.md R38, R39, R40, R41; 70_reset_and_hazards.md R263). -/
theorem exec_keeps {i : Instr} {s t : State} (h : exec i s = .next t) :
    t.cart = s.cart ∧ t.banks = s.banks ∧ t.chrRam = s.chrRam ∧ t.fault = s.fault ∧ t.resetDone = s.resetDone := by
  rcases exec_next h with ⟨ea, v, u, _, hr, rfl⟩ | ⟨ea, _, hw⟩ | ⟨_, _, a, x, y, sp, p, pc, rfl⟩
  · have hu : u.cart = s.cart ∧ u.banks = s.banks ∧ u.chrRam = s.chrRam ∧ u.fault = s.fault ∧ u.resetDone = s.resetDone := by
      rcases reads_state hr with rfl | ⟨slot, rfl⟩ <;> exact ⟨rfl, rfl, rfl, rfl, rfl⟩
    cases i.op <;> exact hu
  · rcases writes_state hw with ⟨rfl, _⟩ | ⟨e, rfl⟩ <;> exact ⟨rfl, rfl, rfl, rfl, rfl⟩
  · exact ⟨rfl, rfl, rfl, rfl, rfl⟩

/-- The call of an instruction's data access is recorded, and nothing else is (20_memory.md R64, R78). -/
theorem exec_events {i : Instr} {s t : State} (h : exec i s = .next t) : t.events = s.events ++ dataCalls i s := by
  rcases exec_next h with ⟨ea, v, u, hl, hr, rfl⟩ | ⟨ea, hs, hw⟩ | ⟨hl, hs, a, x, y, sp, p, pc, rfl⟩
  · have hu := reads_events hr
    simp only [dataCalls, hl, ← hu]
    cases i.op <;> rfl
  · have hl : loadAddress i s = none := by cases i <;> simp only [storeAddress, reduceCtorEq] at hs <;> rfl
    simp only [dataCalls, hl, hs, writes_events hw]
  · simp only [dataCalls, hl, hs, List.append_nil]

/-- No instruction writes the flags U, V, B; none clears I; none sets D (10_state.md R29 to R33). -/
theorem exec_flags {i : Instr} {s t : State} (h : exec i s = .next t) :
    t.p.u = s.p.u ∧ t.p.v = s.p.v ∧ t.p.b = s.p.b ∧
      (s.p.i = true → t.p.i = true) ∧ (s.p.d = false → t.p.d = false) := by
  rcases exec_next h with ⟨ea, v, u, hl, hr, rfl⟩ | ⟨ea, hs, hw⟩ | ⟨hl, hs, -⟩
  · have : u.p = s.p := by rcases reads_state hr with rfl | ⟨k, rfl⟩ <;> rfl
    rw [← this]
    cases i.op <;> simp [readEffect]
  · have : t.p = s.p := by rcases writes_state hw with ⟨rfl, _⟩ | ⟨k, rfl⟩ <;> rfl
    rw [this]; simp
  · cases i <;> simp only [loadAddress, storeAddress, reduceCtorEq] at hl hs <;>
      simp only [exec, execLdaImm, execLdxImm, execLdyImm, execAndImm, execCmpImm, execTxs, execCld, execSei, execBeq,
        Host.Outcome.next.injEq] at h <;>
      first | (subst h; simp) | (split at h <;> cases h <;> simp)

/-- Only a branch that is taken writes `PC` (43_branch.md R210). -/
theorem exec_pc {i : Instr} {s t : State} (h : exec i s = .next t) (hn : i.op ≠ .beq ∨ s.p.z = false) : t.pc = s.pc := by
  rcases exec_next h with ⟨ea, v, u, hl, hr, rfl⟩ | ⟨ea, hs, hw⟩ | ⟨hl, hs, -⟩
  · have hu : u.pc = s.pc := by rcases reads_state hr with rfl | ⟨slot, rfl⟩ <;> rfl
    rw [← hu]; cases i.op <;> rfl
  · rcases writes_state hw with ⟨rfl, _⟩ | ⟨e, rfl⟩ <;> rfl
  · cases i <;> simp only [loadAddress, storeAddress, reduceCtorEq] at hl hs <;> first
      | (cases h; rfl)
      | (rcases hn with hn | hn
         · exact absurd rfl hn
         · simp only [exec, execBeq, hn, Bool.false_eq_true, if_false, Host.Outcome.next.injEq] at h; rw [h])

end Sys2Proof.Machine
end

