-- ==== Sys2Proof/Laws/Host.lean ====
section
/-! SUPPORT. The laws of the loader, of power-on and of `reset()`. -/

namespace Sys2Proof.Machine

theorem Header.parse_short {bytes : List Byte} (h : bytes.length < 16) : Header.parse bytes = none := by
  unfold Header.parse
  split
  · simp at h; omega
  · rfl

theorem Header.parse_long {f : List Byte} (h : 16 ≤ f.length) :
    Header.parse f = some (⟨f.getD 0 0, f.getD 1 0, f.getD 2 0, f.getD 3 0, f.getD 4 0, f.getD 5 0, f.getD 6 0, f.getD 7 0,
      f.getD 8 0, f.getD 9 0, f.getD 10 0, f.getD 11 0, f.getD 12 0, f.getD 13 0, f.getD 14 0, f.getD 15 0⟩, f.drop 16) := by
  match f, h with
  | _ :: _ :: _ :: _ :: _ :: _ :: _ :: _ :: _ :: _ :: _ :: _ :: _ :: _ :: _ :: _ :: _, _ => rfl

/-- What the first checks of `load` accept (20_memory.md R72, R75). -/
theorem Cartridge.parse_ok {bytes : List Byte} {c : Cartridge} (h : Cartridge.parse bytes = .ok c) :
    ∃ body, Header.parse bytes = some (c.header, body) ∧ c.header.magicMatches = true ∧
      c.prgBytes + c.chrBytes ≤ body.length ∧ c.prg = Memory.ofBytes (body.take c.prgBytes) ∧
      c.chr = Memory.ofBytes ((body.drop c.prgBytes).take c.chrBytes) := by
  unfold Cartridge.parse at h
  split at h
  · cases h
  rename_i hd body hp
  split at h
  · rename_i hm
    dsimp only at h
    split at h
    · cases h
    · rename_i hl
      cases h
      exact ⟨body, hp, hm, Nat.not_lt.1 hl, rfl, rfl⟩
  · cases h

theorem Cartridge.load_ok {bytes : List Byte} {c : Cartridge} (h : Cartridge.load bytes = .ok c) :
    Cartridge.parse bytes = .ok c ∧ supportedMappers.contains c.mapperId = true := by
  unfold Cartridge.load at h
  split at h
  · cases h
  rename_i c' hp
  split at h
  · rename_i hm; cases h; exact ⟨hp, hm⟩
  · cases h

/-- A cartridge that loads is well formed, but for the number of its program banks (20_memory.md R66, D29). -/
theorem Cartridge.wellFormed_of_load {bytes : List Byte} {c : Cartridge} (h : Cartridge.load bytes = .ok c)
    (hn : 1 ≤ c.prgCount) : c.wellFormed = true := by
  obtain ⟨hp, hm⟩ := Cartridge.load_ok h
  obtain ⟨body, _, hmagic, hlen, hprg, hchr⟩ := Cartridge.parse_ok hp
  have h1 : c.prg.within c.prgBytes = true := by
    rw [hprg]; exact Memory.ofBytes_within _ (by simp)
  have h2 : c.chr.within c.chrBytes = true := by
    rw [hchr]; exact Memory.ofBytes_within _ (by simp)
  have h3 : c.prg.wf = true := by rw [hprg]; exact Memory.ofBytes_wf _
  have h4 : c.chr.wf = true := by rw [hchr]; exact Memory.ofBytes_wf _
  unfold Cartridge.wellFormed
  rw [h1, h2, h3, h4, hmagic, hm, decide_eq_true hn]; rfl

/-- `reset()` where both bytes of the vector are read (70_reset_and_hazards.md R261). -/
theorem resetCall_of_reads {s : State} {lo hi : Byte} (hs : s.fault = none) (h1 : Reads s 0xFFFC lo s)
    (h2 : Reads s 0xFFFD hi s) : resetCall s = .next (s.launch (wordOfBytes lo hi)) := by
  have e : (Config.resetVector + 1 : Word) = 0xFFFD := by decide
  unfold resetCall readWord
  rw [hs, show Config.resetVector = (0xFFFC : Word) from rfl, busRead_of_reads h1]
  simp only [show (0xFFFC + 1 : Word) = 0xFFFD by decide, busRead_of_reads h2]

/-- `reset()` with mapper 0's slots: the vector is the last two bytes but two of the last bank. -/
theorem resetCall_of_slots {s : State} (hf : s.fault = none) (hb : s.banks = BankSlots.initial s.cart.prgCount)
    (hn : 1 ≤ s.cart.prgCount) :
    resetCall s = .next { s with
      pc := BitVec.ofNat 16 ((Memory.read s.cart.prg ((s.cart.prgCount - 1) * 16384 + 0x3FFD)).toNat * 256 +
        (Memory.read s.cart.prg ((s.cart.prgCount - 1) * 16384 + 0x3FFC)).toNat)
      resetDone := true } := by
  have o1 : programOffset s 0xFFFC = (s.cart.prgCount - 1) * 16384 + 0x3FFC := by
    unfold programOffset; rw [hb]; rfl
  have o2 : programOffset s 0xFFFD = (s.cart.prgCount - 1) * 16384 + 0x3FFD := by
    unfold programOffset; rw [hb]; rfl
  rw [resetCall_of_reads hf (.inr (.inr ⟨by decide, by rw [o1]; omega, rfl, rfl⟩)) (.inr (.inr ⟨by decide, by rw [o2]; omega, rfl, rfl⟩)), o1, o2]
  rfl

theorem resetCall_latched {s : State} {f : Fault} (hs : s.fault = some f) : resetCall s = .refused .faultLatched := by
  unfold resetCall; rw [hs]

/-- `State.reset` is a launch state: `reset()` leaves it as it is, its `PC` being the vector word (log 4). -/
theorem resetCall_reset : resetCall State.reset = .next State.reset := by rfl

/-- A state that meets the invariant is one `step()` may be called on (70_reset_and_hazards.md R263). -/
theorem State.Inv.ready {s : State} (h : s.Inv) : s.Ready := ⟨h.notFaulted, h.launched⟩

/-- The fault of a step is latched over the state it is raised in (60_exceptions.md R230, R242). -/
theorem stepCall_of_fault {s : State} {f : Fault} (h : step s = .fault f) : stepCall s = .faulted f (s.atFault.latch f) := by
  simp only [stepCall, h]

theorem State.atFault_of_fetch {s t : State} {i : Instr} (h : fetchInstr s = .ok (i, t)) : s.atFault = t := by
  simp only [State.atFault, h]

theorem State.atFault_of_fetchFault {s r : State} {f : Fault} (h : fetchInstr s = .error (f, r)) : s.atFault = r := by
  simp only [State.atFault, h]

/-- The invariant with the bank bounds of 10_state.md R38 spelled out. -/
theorem State.Inv.banks_lt {s : State} (h : s.Inv) :
    1 ≤ s.cart.prgCount ∧ s.banks.prgLo < s.cart.prgCount ∧ s.banks.prgHi < s.cart.prgCount ∧ s.banks.chr = 0 := by
  have hw := h.cartOk
  unfold Cartridge.wellFormed at hw
  simp only [Bool.and_eq_true, decide_eq_true_eq] at hw
  have h1 : 1 ≤ s.cart.prgCount := hw.1.1.2
  rw [h.banksFixed]
  exact ⟨h1, h1, Nat.sub_lt h1 Nat.one_pos, rfl⟩

/-- In a state that meets the invariant every read of program storage is in range (20_memory.md R67). -/
theorem State.Inv.programOffset_lt {s : State} (h : s.Inv) (addr : Word) :
    programOffset s addr < s.cart.prgCount * 16384 :=
  Machine.programOffset_lt h.banks_lt.2.1 h.banks_lt.2.2.1 addr

end Sys2Proof.Machine
end

