-- ==== Sys2Proof/Laws/PerInstr.lean ====
section
/-! SUPPORT. The encoding family, one lemma per constructor: the decoder gives an instruction's opcode byte its operation, mode
and length (30_encoding.md R102 to R108), and its encoding has that length (R107). -/

namespace Sys2Proof.Laws.Encoding

/-- What is stated of each instruction. -/
def Statement (i : Instr) : Prop :=
  decodeOpcode i.opcode = some (i.op, i.mode, instrLength i.op i.mode) ∧ (encode i).length = instrLength i.op i.mode

theorem ldaImm (nn : Byte) : Statement (.ldaImm nn) := ⟨decodeOpcode_opcode _, rfl⟩
theorem ldaZp (nn : Byte) : Statement (.ldaZp nn) := ⟨decodeOpcode_opcode _, rfl⟩
theorem ldaZpx (nn : Byte) : Statement (.ldaZpx nn) := ⟨decodeOpcode_opcode _, rfl⟩
theorem ldaAbs (nnnn : Word) : Statement (.ldaAbs nnnn) := ⟨decodeOpcode_opcode _, rfl⟩
theorem ldaAbx (nnnn : Word) : Statement (.ldaAbx nnnn) := ⟨decodeOpcode_opcode _, rfl⟩
theorem ldaAby (nnnn : Word) : Statement (.ldaAby nnnn) := ⟨decodeOpcode_opcode _, rfl⟩
theorem ldaIzx (nn : Byte) : Statement (.ldaIzx nn) := ⟨decodeOpcode_opcode _, rfl⟩
theorem ldaIzy (nn : Byte) : Statement (.ldaIzy nn) := ⟨decodeOpcode_opcode _, rfl⟩
theorem ldxImm (nn : Byte) : Statement (.ldxImm nn) := ⟨decodeOpcode_opcode _, rfl⟩
theorem ldxZp (nn : Byte) : Statement (.ldxZp nn) := ⟨decodeOpcode_opcode _, rfl⟩
theorem ldxZpy (nn : Byte) : Statement (.ldxZpy nn) := ⟨decodeOpcode_opcode _, rfl⟩
theorem ldxAbs (nnnn : Word) : Statement (.ldxAbs nnnn) := ⟨decodeOpcode_opcode _, rfl⟩
theorem ldxAby (nnnn : Word) : Statement (.ldxAby nnnn) := ⟨decodeOpcode_opcode _, rfl⟩
theorem ldyImm (nn : Byte) : Statement (.ldyImm nn) := ⟨decodeOpcode_opcode _, rfl⟩
theorem ldyZp (nn : Byte) : Statement (.ldyZp nn) := ⟨decodeOpcode_opcode _, rfl⟩
theorem ldyZpx (nn : Byte) : Statement (.ldyZpx nn) := ⟨decodeOpcode_opcode _, rfl⟩
theorem ldyAbs (nnnn : Word) : Statement (.ldyAbs nnnn) := ⟨decodeOpcode_opcode _, rfl⟩
theorem ldyAbx (nnnn : Word) : Statement (.ldyAbx nnnn) := ⟨decodeOpcode_opcode _, rfl⟩
theorem staZp (nn : Byte) : Statement (.staZp nn) := ⟨decodeOpcode_opcode _, rfl⟩
theorem staZpx (nn : Byte) : Statement (.staZpx nn) := ⟨decodeOpcode_opcode _, rfl⟩
theorem staAbs (nnnn : Word) : Statement (.staAbs nnnn) := ⟨decodeOpcode_opcode _, rfl⟩
theorem staAbx (nnnn : Word) : Statement (.staAbx nnnn) := ⟨decodeOpcode_opcode _, rfl⟩
theorem staAby (nnnn : Word) : Statement (.staAby nnnn) := ⟨decodeOpcode_opcode _, rfl⟩
theorem staIzx (nn : Byte) : Statement (.staIzx nn) := ⟨decodeOpcode_opcode _, rfl⟩
theorem staIzy (nn : Byte) : Statement (.staIzy nn) := ⟨decodeOpcode_opcode _, rfl⟩
theorem stxZp (nn : Byte) : Statement (.stxZp nn) := ⟨decodeOpcode_opcode _, rfl⟩
theorem stxZpy (nn : Byte) : Statement (.stxZpy nn) := ⟨decodeOpcode_opcode _, rfl⟩
theorem stxAbs (nnnn : Word) : Statement (.stxAbs nnnn) := ⟨decodeOpcode_opcode _, rfl⟩
theorem styZp (nn : Byte) : Statement (.styZp nn) := ⟨decodeOpcode_opcode _, rfl⟩
theorem styZpx (nn : Byte) : Statement (.styZpx nn) := ⟨decodeOpcode_opcode _, rfl⟩
theorem styAbs (nnnn : Word) : Statement (.styAbs nnnn) := ⟨decodeOpcode_opcode _, rfl⟩
theorem andImm (nn : Byte) : Statement (.andImm nn) := ⟨decodeOpcode_opcode _, rfl⟩
theorem andZp (nn : Byte) : Statement (.andZp nn) := ⟨decodeOpcode_opcode _, rfl⟩
theorem andZpx (nn : Byte) : Statement (.andZpx nn) := ⟨decodeOpcode_opcode _, rfl⟩
theorem andAbs (nnnn : Word) : Statement (.andAbs nnnn) := ⟨decodeOpcode_opcode _, rfl⟩
theorem andAbx (nnnn : Word) : Statement (.andAbx nnnn) := ⟨decodeOpcode_opcode _, rfl⟩
theorem andAby (nnnn : Word) : Statement (.andAby nnnn) := ⟨decodeOpcode_opcode _, rfl⟩
theorem andIzx (nn : Byte) : Statement (.andIzx nn) := ⟨decodeOpcode_opcode _, rfl⟩
theorem andIzy (nn : Byte) : Statement (.andIzy nn) := ⟨decodeOpcode_opcode _, rfl⟩
theorem cmpImm (nn : Byte) : Statement (.cmpImm nn) := ⟨decodeOpcode_opcode _, rfl⟩
theorem cmpZp (nn : Byte) : Statement (.cmpZp nn) := ⟨decodeOpcode_opcode _, rfl⟩
theorem cmpZpx (nn : Byte) : Statement (.cmpZpx nn) := ⟨decodeOpcode_opcode _, rfl⟩
theorem cmpAbs (nnnn : Word) : Statement (.cmpAbs nnnn) := ⟨decodeOpcode_opcode _, rfl⟩
theorem cmpAbx (nnnn : Word) : Statement (.cmpAbx nnnn) := ⟨decodeOpcode_opcode _, rfl⟩
theorem cmpAby (nnnn : Word) : Statement (.cmpAby nnnn) := ⟨decodeOpcode_opcode _, rfl⟩
theorem cmpIzx (nn : Byte) : Statement (.cmpIzx nn) := ⟨decodeOpcode_opcode _, rfl⟩
theorem cmpIzy (nn : Byte) : Statement (.cmpIzy nn) := ⟨decodeOpcode_opcode _, rfl⟩
theorem beq (off : Byte) : Statement (.beq off) := ⟨decodeOpcode_opcode _, rfl⟩
theorem txs : Statement .txs := ⟨decodeOpcode_opcode _, rfl⟩
theorem cld : Statement .cld := ⟨decodeOpcode_opcode _, rfl⟩
theorem sei : Statement .sei := ⟨decodeOpcode_opcode _, rfl⟩

end Sys2Proof.Laws.Encoding
end

