-- ==== Sys2Proof/Laws/Rules.lean ====
section
/-! SUPPORT. The rules as Safety.lean writes them out in numbers are what the machine's operations compute. -/

namespace Sys2Proof.Machine

theorem withNZ_eq (v : Byte) (p : Status) : withNZ v p = p.setNZ v := by
  unfold withNZ Status.setNZ
  congr 1 <;> (revert v; decide)

theorem withCompare_eq (acc m : Byte) (p : Status) : withCompare acc m p = p.compare acc m := by
  unfold withCompare Status.compare
  congr 1
  · rw [show (acc.toNat + 256 - m.toNat) % 256 = (acc - m).toNat by bv_omega]
    generalize acc - m = r
    revert r; decide
  · simp [BitVec.toNat_inj]

theorem ofNat_add_zext16 (w : Word) (b : Byte) : BitVec.ofNat 16 (w.toNat + b.toNat) = w + zext16 b := by
  apply BitVec.eq_of_toNat_eq; simp [zext16]

theorem toNat_byte_add (a b : Byte) : (a + b).toNat = (a.toNat + b.toNat) % 256 := BitVec.toNat_add a b

theorem toNat_zeroPagePointer (s : State) (zp : Byte) : (zeroPagePointer s zp).toNat = zeroPageWord s zp.toNat := by
  unfold zeroPagePointer zeroPageWord zeroPageByte
  rw [toNat_wordOfBytes, toNat_byte_add, Nat.mod_eq_of_lt (show zp.toNat < 256 from zp.isLt)]; rfl

theorem zeroPageWord_mod (s : State) (k : Nat) : zeroPageWord s (k % 256) = zeroPageWord s k := by
  unfold zeroPageWord
  rw [show (k % 256 + 1) % 256 = (k + 1) % 256 by omega, Nat.mod_mod]

theorem addrIzx_eq (nn : Byte) (s : State) : BitVec.ofNat 16 (zeroPageWord s (nn.toNat + s.x.toNat)) = addrIzx nn s := by
  rw [← zeroPageWord_mod, ← toNat_byte_add, ← toNat_zeroPagePointer, BitVec.ofNat_toNat, BitVec.setWidth_eq]; rfl

theorem addrIzy_eq (nn : Byte) (s : State) : BitVec.ofNat 16 (zeroPageWord s nn.toNat + s.y.toNat) = addrIzy nn s := by
  rw [← toNat_zeroPagePointer, ofNat_add_zext16]; rfl

end Sys2Proof.Machine
end

