-- ==== Sys2Proof/Tests/Slice0.lean ====
section
/-! SUPPORT. The model's own tests. Expected results come from the spec's worked examples and vectors (95_test_vectors.md, named
at each test) or from its tables; each is one step, one access or one decoding. -/

namespace Sys2Proof.Tests

open Sys2Proof Sys2Proof.Machine

/-! ### Helpers -/

/-- A one-bank machine with `prog` at `pc` in program storage, after power-on but for the given values (95_test_vectors.md,
Conventions). -/
def start (prog : List Byte) (a x y : Byte := 0) (p : Byte := 0x34) (ram : Memory := []) (pc : Word := 0x8000)
    (answers : List Byte := []) : State :=
  { State.reset with
    a := a, x := x, y := y, p := Status.ofByte p, ram := ram, pc := pc, vidAnswers := answers
    cart := { Cartridge.blank with prg := Memory.ofBytesFrom (pc.toNat % 16384) prog } }

/-- The outcome is a next state in which the check holds. -/
def shows (r : Result) (check : State → Bool) : Bool :=
  match r with
  | .next t => check t
  | _ => false

/-- The outcome is the fault. -/
def faults (r : Result) (f : Fault) : Bool :=
  match r with
  | .fault g => decide (g = f)
  | _ => false

/-- The outcome is the refusal. -/
def refuses (r : Result) (q : Refusal) : Bool :=
  match r with
  | .refused g => decide (g = q)
  | _ => false

/-- The value an access answers. -/
def got {α ε : Type} (r : Except ε (α × State)) : Option α := r.toOption.map Prod.fst

/-- The general registers, `P` as a byte, and `PC`. -/
def regs (s : State) : Byte × Byte × Byte × Byte × Byte × Word := (s.a, s.x, s.y, s.sp, s.p.toByte, s.pc)

/-! ### Well-formedness: each check refuses an ill-formed term -/

theorem test_wellFormed_refuses_pairs :
    pairWellFormed .stx .aby = false ∧ pairWellFormed .sta .imm = false ∧ pairWellFormed .ldx .acc = false ∧
      pairWellFormed .sei .rel = false ∧ pairWellFormed .lda .imm = true := by decide

theorem test_wellFormed_accepts_blank : Cartridge.blank.wellFormed = true := by decide

theorem test_wellFormed_refuses_magic :
    Cartridge.wellFormed { Cartridge.blank with header := { Cartridge.blank.header with magic3 := 0 } } = false := by decide

theorem test_wellFormed_refuses_mapper :
    Cartridge.wellFormed { Cartridge.blank with header := { Cartridge.blank.header with flagsLow := 0x10 } } = false := by
  decide

theorem test_wellFormed_refuses_no_program_bank :
    Cartridge.wellFormed { Cartridge.blank with header := { Cartridge.blank.header with prgSize := 0 } } = false := by decide

theorem test_wellFormed_refuses_uncanonical_storage :
    Cartridge.wellFormed { Cartridge.blank with prg := [(1, 7), (0, 7)] } = false ∧
      Cartridge.wellFormed { Cartridge.blank with prg := [(1, 0)] } = false := by decide

theorem test_wellFormed_refuses_program_outside : Cartridge.wellFormed { Cartridge.blank with prg := [(16384, 7)] } = false := by
  decide

theorem test_wellFormed_refuses_graphics_outside : Cartridge.wellFormed { Cartridge.blank with chr := [(0, 7)] } = false := by
  decide

/-! ### Decoding: words written out from opcode_table.json and the formats of 30_encoding.md R100 -/

theorem test_decode_lda :
    decode [0xA9, 0xF3] = .instr (.ldaImm 0xF3) [] ∧
      decode [0xA5, 0xF3] = .instr (.ldaZp 0xF3) [] ∧
      decode [0xB5, 0xF3] = .instr (.ldaZpx 0xF3) [] ∧
      decode [0xAD, 0x34, 0x12] = .instr (.ldaAbs 0x1234) [] ∧
      decode [0xBD, 0x34, 0x12] = .instr (.ldaAbx 0x1234) [] ∧
      decode [0xB9, 0x34, 0x12] = .instr (.ldaAby 0x1234) [] ∧
      decode [0xA1, 0xF3] = .instr (.ldaIzx 0xF3) [] ∧
      decode [0xB1, 0xF3] = .instr (.ldaIzy 0xF3) [] := by decide

theorem test_decode_ldx :
    decode [0xA2, 0xF3] = .instr (.ldxImm 0xF3) [] ∧
      decode [0xA6, 0xF3] = .instr (.ldxZp 0xF3) [] ∧
      decode [0xB6, 0xF3] = .instr (.ldxZpy 0xF3) [] ∧
      decode [0xAE, 0x34, 0x12] = .instr (.ldxAbs 0x1234) [] ∧
      decode [0xBE, 0x34, 0x12] = .instr (.ldxAby 0x1234) [] := by decide

theorem test_decode_ldy :
    decode [0xA0, 0xF3] = .instr (.ldyImm 0xF3) [] ∧
      decode [0xA4, 0xF3] = .instr (.ldyZp 0xF3) [] ∧
      decode [0xB4, 0xF3] = .instr (.ldyZpx 0xF3) [] ∧
      decode [0xAC, 0x34, 0x12] = .instr (.ldyAbs 0x1234) [] ∧
      decode [0xBC, 0x34, 0x12] = .instr (.ldyAbx 0x1234) [] := by decide

theorem test_decode_sta :
    decode [0x85, 0xF3] = .instr (.staZp 0xF3) [] ∧
      decode [0x95, 0xF3] = .instr (.staZpx 0xF3) [] ∧
      decode [0x8D, 0x34, 0x12] = .instr (.staAbs 0x1234) [] ∧
      decode [0x9D, 0x34, 0x12] = .instr (.staAbx 0x1234) [] ∧
      decode [0x99, 0x34, 0x12] = .instr (.staAby 0x1234) [] ∧
      decode [0x81, 0xF3] = .instr (.staIzx 0xF3) [] ∧
      decode [0x91, 0xF3] = .instr (.staIzy 0xF3) [] := by decide

theorem test_decode_stx :
    decode [0x86, 0xF3] = .instr (.stxZp 0xF3) [] ∧
      decode [0x96, 0xF3] = .instr (.stxZpy 0xF3) [] ∧
      decode [0x8E, 0x34, 0x12] = .instr (.stxAbs 0x1234) [] := by decide

theorem test_decode_sty :
    decode [0x84, 0xF3] = .instr (.styZp 0xF3) [] ∧
      decode [0x94, 0xF3] = .instr (.styZpx 0xF3) [] ∧
      decode [0x8C, 0x34, 0x12] = .instr (.styAbs 0x1234) [] := by decide

theorem test_decode_and :
    decode [0x29, 0xF3] = .instr (.andImm 0xF3) [] ∧
      decode [0x25, 0xF3] = .instr (.andZp 0xF3) [] ∧
      decode [0x35, 0xF3] = .instr (.andZpx 0xF3) [] ∧
      decode [0x2D, 0x34, 0x12] = .instr (.andAbs 0x1234) [] ∧
      decode [0x3D, 0x34, 0x12] = .instr (.andAbx 0x1234) [] ∧
      decode [0x39, 0x34, 0x12] = .instr (.andAby 0x1234) [] ∧
      decode [0x21, 0xF3] = .instr (.andIzx 0xF3) [] ∧
      decode [0x31, 0xF3] = .instr (.andIzy 0xF3) [] := by decide

theorem test_decode_cmp :
    decode [0xC9, 0xF3] = .instr (.cmpImm 0xF3) [] ∧
      decode [0xC5, 0xF3] = .instr (.cmpZp 0xF3) [] ∧
      decode [0xD5, 0xF3] = .instr (.cmpZpx 0xF3) [] ∧
      decode [0xCD, 0x34, 0x12] = .instr (.cmpAbs 0x1234) [] ∧
      decode [0xDD, 0x34, 0x12] = .instr (.cmpAbx 0x1234) [] ∧
      decode [0xD9, 0x34, 0x12] = .instr (.cmpAby 0x1234) [] ∧
      decode [0xC1, 0xF3] = .instr (.cmpIzx 0xF3) [] ∧
      decode [0xD1, 0xF3] = .instr (.cmpIzy 0xF3) [] := by decide

theorem test_decode_beq :
    decode [0xF0, 0xF3] = .instr (.beq 0xF3) [] := by decide

theorem test_decode_txs :
    decode [0x9A] = .instr .txs [] := by decide

theorem test_decode_cld :
    decode [0xD8] = .instr .cld [] := by decide

theorem test_decode_sei :
    decode [0x78] = .instr .sei [] := by decide

/-- The rows of V-DEC that decode to no instruction (95_test_vectors.md). -/
theorem test_decode_rejects :
    decode [0x00] = .illegalOpcode 0x00 ∧ decode [0x02] = .illegalOpcode 0x02 ∧ decode [0x03] = .illegalOpcode 0x03 ∧
      decode [0xEA] = .illegalOpcode 0xEA ∧ decode [0x4C] = .illegalOpcode 0x4C ∧ decode [0xFF] = .illegalOpcode 0xFF ∧
      decode [0x92] = .illegalOpcode 0x92 ∧ decode [0xB2] = .illegalOpcode 0xB2 ∧
      decode [0xAA] = .unimplemented .ldx .acc 0xAA ∧ decode [0x80] = .unimplemented .sty .imm 0x80 ∧
      decode [0x89] = .unimplemented .sta .imm 0x89 ∧ decode [0x9E] = .unimplemented .stx .aby 0x9E ∧
      decode [0xBA] = .unimplemented .ldx .imp 0xBA ∧ decode [] = .truncated ∧ decode [0xAD, 0x34] = .truncated := by decide

/-- The first word is the low byte; an operand the table gives no bits is 0. -/
theorem test_decodeTableWord :
    decodeTableWord 16 0xFEF0 = some (.beq 0xFE) ∧ decodeTableWord 8 0xF0 = some (.beq 0) ∧
      decodeTableWord 24 0x12348D = some (.staAbs 0x1234) ∧ decodeTableWord 8 0x02 = none := by decide

/-! ### Instructions: rows of 95_test_vectors.md -/

/-- V-LD row 1. -/
theorem test_ldaImm_zero :
    shows (step (start [0xA9, 0x00] (a := 0x55)))
      (fun t => decide (regs t = (0x00, 0x00, 0x00, 0xFD, 0x36, 0x8002))) = true := by decide

/-- V-LD row 3. -/
theorem test_ldaImm_clears :
    shows (step (start [0xA9, 0x7F] (p := 0xB6)))
      (fun t => decide (regs t = (0x7F, 0x00, 0x00, 0xFD, 0x34, 0x8002))) = true := by decide

/-- V-LD row 4. -/
theorem test_ldaZp :
    shows (step (start [0xA5, 0x10] (ram := [(0x010, 0x42)])))
      (fun t => decide (regs t = (0x42, 0x00, 0x00, 0xFD, 0x34, 0x8002))) = true := by decide

/-- V-LD row 5. -/
theorem test_ldaZpx_wraps :
    shows (step (start [0xB5, 0xF0] (x := 0x20) (ram := [(0x010, 0x99), (0x110, 0x11)])))
      (fun t => decide (regs t = (0x99, 0x20, 0x00, 0xFD, 0xB4, 0x8002))) = true := by decide

/-- V-LD row 6. -/
theorem test_ldaAbs_mirror :
    shows (step (start [0xAD, 0x34, 0x12] (ram := [(0x234, 0x01)])))
      (fun t => decide (regs t = (0x01, 0x00, 0x00, 0xFD, 0x34, 0x8003))) = true := by decide

/-- V-LD row 12. -/
theorem test_ldaAbs_device :
    shows (step (start [0xAD, 0x02, 0x20] (answers := [0x80])))
      (fun t => decide (regs t = (0x80, 0x00, 0x00, 0xFD, 0xB4, 0x8003) ∧ t.events = [.vidRead 2])) = true := by decide

/-- V-LD row 7. -/
theorem test_ldaAbx_wraps :
    shows (step (start [0xBD, 0xF0, 0xFF] (x := 0x20) (ram := [(0x010, 0xAB)])))
      (fun t => decide (regs t = (0xAB, 0x20, 0x00, 0xFD, 0xB4, 0x8003))) = true := by decide

/-- V-LD row 8. -/
theorem test_ldaAby :
    shows (step (start [0xB9, 0xFF, 0x07] (y := 0x01) (ram := [(0x7FF, 0x66)])))
      (fun t => decide (regs t = (0x00, 0x00, 0x01, 0xFD, 0x36, 0x8003))) = true := by decide

/-- V-LD row 9. -/
theorem test_ldaIzx_pointer_wraps :
    shows (step (start [0xA1, 0xFE] (x := 0x01) (ram := [(0x000, 0x02), (0x0FF, 0x34), (0x234, 0xC3)])))
      (fun t => decide (regs t = (0xC3, 0x01, 0x00, 0xFD, 0xB4, 0x8002))) = true := by decide

/-- V-LD row 10. -/
theorem test_ldaIzy :
    shows (step (start [0xB1, 0x10] (y := 0x20) (ram := [(0x010, 0xF0), (0x011, 0x07)])))
      (fun t => decide (regs t = (0xF0, 0x00, 0x20, 0xFD, 0xB4, 0x8002))) = true := by decide

/-- V-LD row 11. -/
theorem test_ldaIzy_pointer_wraps :
    shows (step (start [0xB1, 0xFF] (ram := [(0x000, 0x03), (0x100, 0x09), (0x300, 0x5A)])))
      (fun t => decide (regs t = (0x5A, 0x00, 0x00, 0xFD, 0x34, 0x8002))) = true := by decide

/-- V-LD row 20. -/
theorem test_ldxImm :
    shows (step (start [0xA2, 0xFF]))
      (fun t => decide (regs t = (0x00, 0xFF, 0x00, 0xFD, 0xB4, 0x8002))) = true := by decide

/-- V-LD row 21. -/
theorem test_ldxZp :
    shows (step (start [0xA6, 0x10] (x := 0x09)))
      (fun t => decide (regs t = (0x00, 0x00, 0x00, 0xFD, 0x36, 0x8002))) = true := by decide

/-- V-LD row 22. -/
theorem test_ldxZpy_wraps :
    shows (step (start [0xB6, 0xF0] (y := 0x11) (ram := [(0x001, 0x7E)])))
      (fun t => decide (regs t = (0x00, 0x7E, 0x11, 0xFD, 0x34, 0x8002))) = true := by decide

/-- V-LD row 23. -/
theorem test_ldxAbs :
    shows (step (start [0xAE, 0x00, 0x03] (ram := [(0x300, 0x81)])))
      (fun t => decide (regs t = (0x00, 0x81, 0x00, 0xFD, 0xB4, 0x8003))) = true := by decide

/-- V-LD row 24. -/
theorem test_ldxAby :
    shows (step (start [0xBE, 0x00, 0x03] (y := 0xFF) (ram := [(0x3FF, 0x01)])))
      (fun t => decide (regs t = (0x00, 0x01, 0xFF, 0xFD, 0x34, 0x8003))) = true := by decide

/-- V-LD row 25. -/
theorem test_ldyImm :
    shows (step (start [0xA0, 0x00] (y := 0x09)))
      (fun t => decide (regs t = (0x00, 0x00, 0x00, 0xFD, 0x36, 0x8002))) = true := by decide

/-- V-LD row 26. -/
theorem test_ldyZp :
    shows (step (start [0xA4, 0x10] (ram := [(0x010, 0xFE)])))
      (fun t => decide (regs t = (0x00, 0x00, 0xFE, 0xFD, 0xB4, 0x8002))) = true := by decide

/-- V-LD row 27. -/
theorem test_ldyZpx_wraps :
    shows (step (start [0xB4, 0x10] (x := 0xF0) (ram := [(0x000, 0x05)])))
      (fun t => decide (regs t = (0x00, 0xF0, 0x05, 0xFD, 0x34, 0x8002))) = true := by decide

/-- V-LD row 28. -/
theorem test_ldyAbs_mirror :
    shows (step (start [0xAC, 0x00, 0x08] (ram := [(0x000, 0x30)])))
      (fun t => decide (regs t = (0x00, 0x00, 0x30, 0xFD, 0x34, 0x8003))) = true := by decide

/-- V-LD row 29. -/
theorem test_ldyAbx_into_device :
    shows (step (start [0xBC, 0xFF, 0x1F] (x := 0x01) (answers := [0x44])))
      (fun t => decide (regs t = (0x00, 0x01, 0x44, 0xFD, 0x34, 0x8003) ∧ t.events = [.vidRead 0])) = true := by decide

/-- V-ST row 1. -/
theorem test_staZp_no_flag :
    shows (step (start [0x85, 0x10] (a := 0x00) (p := 0xB4) (ram := [(0x010, 0x07)])))
      (fun t => decide (regs t = (0x00, 0x00, 0x00, 0xFD, 0xB4, 0x8002) ∧ t.ram = [])) = true := by decide

/-- V-ST row 2. -/
theorem test_staZpx_wraps :
    shows (step (start [0x95, 0xF0] (a := 0x77) (x := 0x20)))
      (fun t => decide (regs t = (0x77, 0x20, 0x00, 0xFD, 0x34, 0x8002) ∧ t.ram = [(0x010, 0x77)])) = true := by decide

/-- V-ST row 3. -/
theorem test_staAbs_mirror :
    shows (step (start [0x8D, 0x00, 0x08] (a := 0x05)))
      (fun t => decide (regs t = (0x05, 0x00, 0x00, 0xFD, 0x34, 0x8003) ∧ t.ram = [(0x000, 0x05)])) = true := by decide

/-- V-ST row 10. -/
theorem test_staAbs_oamDma :
    shows (step (start [0x8D, 0x14, 0x40] (a := 0x02)))
      (fun t => decide (regs t = (0x02, 0x00, 0x00, 0xFD, 0x34, 0x8003) ∧ t.ram = [] ∧ t.events = [.oamDmaTrigger 0x02])) = true := by decide

/-- V-ST row 4. -/
theorem test_staAbx :
    shows (step (start [0x9D, 0xFF, 0x1F] (a := 0x12)))
      (fun t => decide (regs t = (0x12, 0x00, 0x00, 0xFD, 0x34, 0x8003) ∧ t.ram = [(0x7FF, 0x12)])) = true := by decide

/-- V-ST row 5. -/
theorem test_staAbx_into_device :
    shows (step (start [0x9D, 0xFF, 0x1F] (a := 0x12) (x := 0x01)))
      (fun t => decide (regs t = (0x12, 0x01, 0x00, 0xFD, 0x34, 0x8003) ∧ t.ram = [] ∧ t.events = [.vidWrite 0 0x12])) = true := by decide

/-- V-ST row 6. -/
theorem test_staAby :
    shows (step (start [0x99, 0x00, 0x02] (a := 0xEE) (y := 0x10)))
      (fun t => decide (regs t = (0xEE, 0x00, 0x10, 0xFD, 0x34, 0x8003) ∧ t.ram = [(0x210, 0xEE)])) = true := by decide

/-- V-ST row 7. -/
theorem test_staIzx :
    shows (step (start [0x81, 0x20] (a := 0x3C) (x := 0x04) (ram := [(0x025, 0x03)])))
      (fun t => decide (regs t = (0x3C, 0x04, 0x00, 0xFD, 0x34, 0x8002) ∧ t.ram = [(0x025, 0x03), (0x300, 0x3C)])) = true := by decide

/-- V-ST row 8. -/
theorem test_staIzy_device :
    shows (step (start [0x91, 0x20] (a := 0x3C) (y := 0x05) (ram := [(0x020, 0xFE), (0x021, 0x1F)])))
      (fun t => decide (regs t = (0x3C, 0x00, 0x05, 0xFD, 0x34, 0x8002) ∧ t.ram = [(0x020, 0xFE), (0x021, 0x1F)] ∧ t.events = [.vidWrite 3 0x3C])) = true := by decide

/-- V-ST row 16. -/
theorem test_stxZp_no_flag :
    shows (step (start [0x86, 0x10] (x := 0x80)))
      (fun t => decide (regs t = (0x00, 0x80, 0x00, 0xFD, 0x34, 0x8002) ∧ t.ram = [(0x010, 0x80)])) = true := by decide

/-- V-ST row 17. -/
theorem test_stxZpy_wraps :
    shows (step (start [0x96, 0xFF] (x := 0x21) (y := 0x02)))
      (fun t => decide (regs t = (0x00, 0x21, 0x02, 0xFD, 0x34, 0x8002) ∧ t.ram = [(0x001, 0x21)])) = true := by decide

/-- V-ST row 18. -/
theorem test_stxAbs :
    shows (step (start [0x8E, 0xFF, 0x07] (x := 0x33)))
      (fun t => decide (regs t = (0x00, 0x33, 0x00, 0xFD, 0x34, 0x8003) ∧ t.ram = [(0x7FF, 0x33)])) = true := by decide

/-- V-ST row 19. -/
theorem test_styZp :
    shows (step (start [0x84, 0x10] (y := 0x44)))
      (fun t => decide (regs t = (0x00, 0x00, 0x44, 0xFD, 0x34, 0x8002) ∧ t.ram = [(0x010, 0x44)])) = true := by decide

/-- V-ST row 20. -/
theorem test_styZpx_wraps :
    shows (step (start [0x94, 0x10] (x := 0xFF) (y := 0x44)))
      (fun t => decide (regs t = (0x00, 0xFF, 0x44, 0xFD, 0x34, 0x8002) ∧ t.ram = [(0x00F, 0x44)])) = true := by decide

/-- V-ST row 21. -/
theorem test_styAbs_device :
    shows (step (start [0x8C, 0x06, 0x20] (y := 0x3F)))
      (fun t => decide (regs t = (0x00, 0x00, 0x3F, 0xFD, 0x34, 0x8003) ∧ t.ram = [] ∧ t.events = [.vidWrite 6 0x3F])) = true := by decide

/-- V-AND row 4. -/
theorem test_andImm_keeps_carry :
    shows (step (start [0x29, 0x0F] (a := 0xF0) (p := 0xB5)))
      (fun t => decide (regs t = (0x00, 0x00, 0x00, 0xFD, 0x37, 0x8002))) = true := by decide

/-- V-AND row 2. -/
theorem test_andImm_source_example :
    shows (step (start [0x29, 0xFF] (a := 0xF0)))
      (fun t => decide (regs t = (0xF0, 0x00, 0x00, 0xFD, 0xB4, 0x8002))) = true := by decide

/-- V-AND row 6. -/
theorem test_andZp :
    shows (step (start [0x25, 0x10] (a := 0xAA) (ram := [(0x010, 0x55)])))
      (fun t => decide (regs t = (0x00, 0x00, 0x00, 0xFD, 0x36, 0x8002))) = true := by decide

/-- V-AND row 7. -/
theorem test_andZpx :
    shows (step (start [0x35, 0x10] (a := 0xFF) (x := 0x05) (ram := [(0x015, 0x81)])))
      (fun t => decide (regs t = (0x81, 0x05, 0x00, 0xFD, 0xB4, 0x8002))) = true := by decide

/-- V-AND row 8. -/
theorem test_andAbs :
    shows (step (start [0x2D, 0x00, 0x03] (a := 0x7F) (ram := [(0x300, 0xFF)])))
      (fun t => decide (regs t = (0x7F, 0x00, 0x00, 0xFD, 0x34, 0x8003))) = true := by decide

/-- V-AND row 13. -/
theorem test_andAbs_device :
    shows (step (start [0x2D, 0x02, 0x20] (a := 0x80) (answers := [0xE0])))
      (fun t => decide (regs t = (0x80, 0x00, 0x00, 0xFD, 0xB4, 0x8003) ∧ t.events = [.vidRead 2])) = true := by decide

/-- V-AND row 9. -/
theorem test_andAbx :
    shows (step (start [0x3D, 0x00, 0x03] (a := 0xC0) (x := 0x10) (ram := [(0x310, 0x40)])))
      (fun t => decide (regs t = (0x40, 0x10, 0x00, 0xFD, 0x34, 0x8003))) = true := by decide

/-- V-AND row 10. -/
theorem test_andAby :
    shows (step (start [0x39, 0x00, 0x03] (a := 0x01) (y := 0x01) (ram := [(0x301, 0xFE)])))
      (fun t => decide (regs t = (0x00, 0x00, 0x01, 0xFD, 0x36, 0x8003))) = true := by decide

/-- V-AND row 11. -/
theorem test_andIzx_wraps :
    shows (step (start [0x21, 0x40] (a := 0xFF) (x := 0xC0) (ram := [(0x000, 0x80), (0x001, 0x01), (0x180, 0x18)])))
      (fun t => decide (regs t = (0x18, 0xC0, 0x00, 0xFD, 0x34, 0x8002))) = true := by decide

/-- V-AND row 12. -/
theorem test_andIzy :
    shows (step (start [0x31, 0x40] (a := 0x3C) (y := 0xFF) (ram := [(0x040, 0x01), (0x041, 0x02), (0x300, 0x0F)])))
      (fun t => decide (regs t = (0x0C, 0x00, 0xFF, 0xFD, 0x34, 0x8002))) = true := by decide

/-- V-CMP row 12. -/
theorem test_cmpImm_keeps_flags :
    shows (step (start [0xC9, 0x05] (a := 0x06) (p := 0xF7)))
      (fun t => decide (regs t = (0x06, 0x00, 0x00, 0xFD, 0x75, 0x8002))) = true := by decide

/-- V-CMP rows 1 to 11: `A`, the operand, and `P` after. -/
theorem test_cmpImm_table :
    ([(0x05, 0x05, 0x37), (0x05, 0x06, 0xB4), (0x06, 0x05, 0x35), (0x00, 0x00, 0x37), (0x00, 0x01, 0xB4), (0x00, 0xFF, 0x34),
      (0xFF, 0x00, 0xB5), (0x80, 0x7F, 0x35), (0x7F, 0x80, 0xB4), (0x80, 0x80, 0x37), (0x01, 0x81, 0xB4)] :
      List (Byte × Byte × Byte)).all (fun r => ((Status.ofByte 0x34).compare r.1 r.2.1).toByte = r.2.2) = true := by decide

/-- V-CMP row 13. -/
theorem test_cmpZp :
    shows (step (start [0xC5, 0x10] (a := 0x10) (ram := [(0x010, 0x10)])))
      (fun t => decide (regs t = (0x10, 0x00, 0x00, 0xFD, 0x37, 0x8002))) = true := by decide

/-- V-CMP row 14. -/
theorem test_cmpZpx :
    shows (step (start [0xD5, 0x10] (a := 0x10) (x := 0x01) (ram := [(0x011, 0x20)])))
      (fun t => decide (regs t = (0x10, 0x01, 0x00, 0xFD, 0xB4, 0x8002))) = true := by decide

/-- V-CMP row 15. -/
theorem test_cmpAbs :
    shows (step (start [0xCD, 0x00, 0x03] (a := 0x90) (ram := [(0x300, 0x10)])))
      (fun t => decide (regs t = (0x90, 0x00, 0x00, 0xFD, 0xB5, 0x8003))) = true := by decide

/-- V-CMP row 20. -/
theorem test_cmpAbs_device :
    shows (step (start [0xCD, 0x02, 0x20] (a := 0x80) (answers := [0x80])))
      (fun t => decide (regs t = (0x80, 0x00, 0x00, 0xFD, 0x37, 0x8003) ∧ t.events = [.vidRead 2])) = true := by decide

/-- V-CMP row 16. -/
theorem test_cmpAbx :
    shows (step (start [0xDD, 0x00, 0x03] (a := 0x01) (x := 0xFF) (ram := [(0x3FF, 0x01)])))
      (fun t => decide (regs t = (0x01, 0xFF, 0x00, 0xFD, 0x37, 0x8003))) = true := by decide

/-- V-CMP row 17. -/
theorem test_cmpAby :
    shows (step (start [0xD9, 0x00, 0x03] (a := 0xFE) (y := 0x02) (ram := [(0x302, 0xFF)])))
      (fun t => decide (regs t = (0xFE, 0x00, 0x02, 0xFD, 0xB4, 0x8003))) = true := by decide

/-- V-CMP row 18. -/
theorem test_cmpIzx :
    shows (step (start [0xC1, 0x10] (a := 0x42) (x := 0x02) (ram := [(0x013, 0x04), (0x400, 0x42)])))
      (fun t => decide (regs t = (0x42, 0x02, 0x00, 0xFD, 0x37, 0x8002))) = true := by decide

/-- V-CMP row 19. -/
theorem test_cmpIzy :
    shows (step (start [0xD1, 0x10] (a := 0x00) (y := 0x01) (ram := [(0x010, 0xFF), (0x011, 0x04), (0x500, 0x80)])))
      (fun t => decide (regs t = (0x00, 0x00, 0x01, 0xFD, 0xB4, 0x8002))) = true := by decide

/-- V-BEQ rows 1 to 8 and 10 to 13: the opcode's address, the offset, `P`, and `PC` after. -/
theorem test_beq_table :
    ([(0x8000, 0x10, 0x36, 0x8012), (0x8000, 0x10, 0x34, 0x8002), (0x8000, 0xFE, 0x36, 0x8000), (0x8000, 0x00, 0x36, 0x8002),
      (0x8000, 0x7F, 0x36, 0x8081), (0x8000, 0x80, 0x36, 0x7F82), (0x8000, 0xFF, 0x36, 0x8001), (0x800F, 0xFE, 0x36, 0x800F),
      (0xFFF0, 0x7F, 0x36, 0x0071), (0xFFF0, 0x10, 0x36, 0x0002), (0x8000, 0x05, 0xFF, 0x8007), (0x8000, 0x05, 0xFD, 0x8002)] :
      List (Word × Byte × Byte × Word)).all (fun r =>
        shows (step (start [0xF0, r.2.1] (p := r.2.2.1) (pc := r.1))) (fun t => decide (regs t = (0, 0, 0, 0xFD, r.2.2.1, r.2.2.2))))
      = true := by decide

/-- V-BEQ row 9: a branch in RAM that wraps below 0x0000. -/
theorem test_beq_in_ram :
    shows (step (start [] (p := 0x36) (ram := [(0x010, 0xF0), (0x011, 0x80)]) (pc := 0x0010)))
      (fun t => decide (t.pc = 0xFF92)) = true := by decide

/-- V-FLG row 2. -/
theorem test_txs_no_flag :
    shows (step (start [0x9A] (x := 0x00) (p := 0xB4)))
      (fun t => decide (regs t = (0x00, 0x00, 0x00, 0x00, 0xB4, 0x8001))) = true := by decide

/-- V-FLG row 1. -/
theorem test_txs :
    shows (step (start [0x9A] (x := 0xFF)))
      (fun t => decide (regs t = (0x00, 0xFF, 0x00, 0xFF, 0x34, 0x8001))) = true := by decide

/-- V-FLG row 5. -/
theorem test_cld :
    shows (step (start [0xD8] (p := 0xFF)))
      (fun t => decide (regs t = (0x00, 0x00, 0x00, 0xFD, 0xF7, 0x8001))) = true := by decide

/-- V-FLG row 4. -/
theorem test_cld_again :
    shows (step (start [0xD8] (p := 0x34)))
      (fun t => decide (regs t = (0x00, 0x00, 0x00, 0xFD, 0x34, 0x8001))) = true := by decide

/-- V-FLG row 8. -/
theorem test_sei :
    shows (step (start [0x78] (p := 0x00)))
      (fun t => decide (regs t = (0x00, 0x00, 0x00, 0xFD, 0x04, 0x8001))) = true := by decide

/-- V-FLG row 7. -/
theorem test_sei_again :
    shows (step (start [0x78] (p := 0x34)))
      (fun t => decide (regs t = (0x00, 0x00, 0x00, 0xFD, 0x34, 0x8001))) = true := by decide

/-! ### Faults of a step -/

/-- V-LD rows 15 to 19, V-ST rows 11 to 15: the data access faults, by its address. -/
theorem test_data_faults :
    faults (step (start [0xAD, 0x14, 0x40])) (.unmappedAddress 0x4014) = true ∧
      faults (step (start [0xAD, 0x16, 0x40])) (.unimplementedRegion 0x4016) = true ∧
      faults (step (start [0xAD, 0x18, 0x40])) (.unimplementedRegion 0x4018) = true ∧
      faults (step (start [0xAD, 0x20, 0x40])) (.unmappedAddress 0x4020) = true ∧
      faults (step (start [0xAD, 0x00, 0x60])) (.unmappedAddress 0x6000) = true ∧
      faults (step (start [0x8D, 0x15, 0x40])) (.unimplementedRegion 0x4015) = true ∧
      faults (step (start [0x8D, 0x1F, 0x40])) (.unimplementedRegion 0x401F) = true ∧
      faults (step (start [0x8D, 0x00, 0x50])) (.readOnlyViolation 0x5000) = true ∧
      faults (step (start [0x8D, 0x00, 0x80])) (.readOnlyViolation 0x8000) = true ∧
      faults (step (start [0x8D, 0xFF, 0xFF])) (.readOnlyViolation 0xFFFF) = true := by decide

/-- V-DEC, the rows that fault, fetched at 0x8000. -/
theorem test_decode_faults :
    faults (step (start [0x02])) (.illegalOpcode 0x02 0x8000) = true ∧
      faults (step (start [0xEA])) (.illegalOpcode 0xEA 0x8000) = true ∧
      faults (step (start [0x92])) (.illegalOpcode 0x92 0x8000) = true ∧
      faults (step (start [0xAA])) (.unimplementedInstruction .ldx .acc 0xAA 0x8000) = true ∧
      faults (step (start [0x9E])) (.unimplementedInstruction .stx .aby 0x9E 0x8000) = true := by decide

/-- V-BUS rows 23 and 24: the opcode fetch faults. -/
theorem test_fetch_faults :
    faults (step (start [] (pc := 0x4020))) (.unmappedAddress 0x4020) = true ∧
      faults (step (start [] (pc := 0x4015))) (.unimplementedRegion 0x4015) = true := by decide

/-- V-BUS row 25: an instruction fetched from the device window. -/
theorem test_fetch_from_device :
    shows (step (start [] (pc := 0x2000) (answers := [0xA9, 0x01])))
      (fun t => decide (t.a = 0x01 ∧ t.pc = 0x2002 ∧ t.events = [.vidRead 0, .vidRead 1])) = true := by decide

/-- V-BUS row 26: an instruction that straddles the wrap from 0xFFFF to 0x0000. -/
theorem test_fetch_wraps :
    shows (step (start [0xAD, 0x10] (ram := [(0x010, 0x77)]) (pc := 0xFFFE)))
      (fun t => decide (t.a = 0x77 ∧ t.pc = 0x0001)) = true := by decide

/-- V-BUS rows 21 and 22: instructions fetched through mirrors of RAM. -/
theorem test_fetch_mirror :
    shows (step (start [] (ram := [(0x200, 0xA9), (0x201, 0x07)]) (pc := 0x0A00))) (fun t => decide (t.a = 0x07 ∧ t.pc = 0x0A02)) = true ∧
      shows (step (start [] (ram := [(0x000, 0x33), (0x7FF, 0xA9)]) (pc := 0x07FF)))
        (fun t => decide (t.a = 0x33 ∧ t.pc = 0x0801)) = true := by decide

/-- 60_exceptions.md R243: no step of a machine whose latch is set. -/
theorem test_latched : refuses (step { start [0x78] with fault := some (.unmappedAddress 0x4014) }) .faultLatched = true := by
  decide

/-- 70_reset_and_hazards.md R263: no step of a machine whose `reset()` has never run. -/
theorem test_never_reset : refuses (step { start [0x78] with resetDone := false }) .neverReset = true := by decide

/-- The record of the machine a faulting step leaves. -/
def faultRecord (s : State) : Option (List Event) :=
  match stepCall s with
  | .faulted _ t => some t.events
  | _ => none

/-- 60_exceptions.md R242: device reads made before the fault have been seen (the opcode at 0x3FFF, its operand at 0x4000; all
three bytes from the window and the data read at 0x4015; an opcode that is no instruction; an opcode fetch that faults). -/
theorem test_calls_before_a_fault :
    faultRecord (start [] (pc := 0x3FFF) (answers := [0xA9])) = some [.vidRead 7] ∧
      faultRecord (start [] (pc := 0x2000) (answers := [0xAD, 0x15, 0x40])) = some [.vidRead 0, .vidRead 1, .vidRead 2] ∧
      faultRecord (start [] (pc := 0x2009) (answers := [0x03])) = some [.vidRead 1] ∧
      faultRecord (start [] (pc := 0x4000)) = some [] := by decide

/-! ### The bus, the cartridge and the host's calls -/

/-- V-BUS rows 4 to 11. -/
theorem test_bus :
    busWrite 0x3FFF 9 (start []) = .ok { start [] with events := [.vidWrite 7 9] } ∧
      busRead 0x4000 (start []) = .error (.unimplementedRegion 0x4000) ∧
      busWrite 0x4000 9 (start []) = .error (.unimplementedRegion 0x4000) ∧
      busRead 0x4017 (start []) = .error (.unimplementedRegion 0x4017) ∧
      busWrite 0x4014 9 (start []) = .ok { start [] with events := [.oamDmaTrigger 9] } ∧
      busRead 0x7FFF (start []) = .error (.unmappedAddress 0x7FFF) ∧
      busWrite 0x7FFF 9 (start []) = .error (.readOnlyViolation 0x7FFF) := by decide

/-- A two-bank machine (V-BUS rows 12 to 18). -/
def twoBanks (prg : Memory) : State :=
  { State.reset with
    cart := { Cartridge.blank with header := { Cartridge.blank.header with prgSize := 2 }, prg := prg }
    banks := BankSlots.initial 2 }

/-- V-BUS rows 12, 13, 15, 18. -/
theorem test_two_banks :
    let s := twoBanks [(0, 1), (16383, 2), (16384, 3)]
    got (busRead 0x8000 s) = some 1 ∧ got (busRead 0xBFFF s) = some 2 ∧ got (busRead 0xC000 s) = some 3 ∧
      got (readWord 0xBFFF s) = some 0x0302 := by decide

/-- V-BUS rows 14, 17 and 19: a mirror, and word reads that straddle two regions. -/
theorem test_word_read :
    got (busRead 0xC000 (start [0x55])) = some 0x55 ∧
      got (readWord 0x1FFF (start [] (ram := [(0x7FF, 0x34)]) (answers := [0x12]))) = some 0x1234 ∧
      got (readWord 0xFFFF (start [0xCD] (ram := [(0, 0xAB)]) (pc := 0xFFFF))) = some 0xABCD := by decide

/-- 20_memory.md R76: the Cartridge Image's accessors are bounds-checked. -/
theorem test_cartridge_accessors :
    Cartridge.prgWord { Cartridge.blank with prg := [(2, 0x34), (3, 0x12)] } 2 = .ok 0x1234 ∧
      Cartridge.prgWord Cartridge.blank 16383 = .error (.internalBoundsError 16384) ∧
      Cartridge.chrByte Cartridge.blank 0 = .error (.internalBoundsError 0) := by decide

/-- Source example S6 (95_test_vectors.md): the vector word 0x8123. -/
theorem test_reset_vector :
    shows (resetCall { start [] with cart := { Cartridge.blank with prg := [(0x3FFC, 0x23), (0x3FFD, 0x81)] } })
      (fun t => decide (t.pc = 0x8123 ∧ t.sp = 0xFD)) = true := by decide

/-- V-LOAD rows 1 to 4, 12. -/
theorem test_load_rejects :
    Cartridge.load [0x4E, 0x45, 0x53, 0x00, 2, 0, 0, 0, 0, 0, 0, 0, 0, 0, 0, 0] = .error .badMagic ∧
      Cartridge.load [0x4E, 0x45, 0x53, 0x1A, 2, 0, 0, 0, 0, 0, 0, 0, 0, 0, 0, 0] = .error .truncatedImage ∧
      Cartridge.load [0x4E, 0x45, 0x53, 0x00, 2, 0, 0, 0, 0, 0, 0, 0, 0, 0, 0] = .error .truncatedImage ∧
      Cartridge.load [0x4E, 0x45, 0x53, 0x1A, 0, 0, 0x20, 0x40, 0, 0, 0, 0, 0, 0, 0, 0] = .error (.unsupportedMapper 0x42) ∧
      (Cartridge.load [0x4E, 0x45, 0x53, 0x1A, 0, 0, 0x0F, 0x0F, 0, 0, 0, 0, 0, 0, 0, 0]).toOption.map Cartridge.mapperId =
        some 0 := by decide

/-- 20_memory.md R66, D29: no machine with `PRG_COUNT` = 0. -/
theorem test_no_program_bank (v : PowerOnValues) :
    powerOn [0x4E, 0x45, 0x53, 0x1A, 0, 0, 0, 0, 0, 0, 0, 0, 0, 0, 0, 0] v = .ok (.refused .noProgramBank) := by rfl

/-- 10_state.md R26, D12: the stack window is 0x0100 to 0x01FF. -/
theorem test_stackAddress : (start []).stackAddress = 0x01FD ∧ { start [] with sp := 0xFF }.stackAddress = 0x01FF := by decide

/-- The step runs the word placed where it fetches, from reset. -/
theorem test_withFetchWord :
    shows (step (State.reset.withFetchWord 16 0x05A9)) (fun t => decide (t.a = 5 ∧ t.pc = 2)) = true ∧
      shows (step (State.reset.withFetchWord 24 0x00108D)) (fun t => decide (t.pc = 3)) = true ∧
      shows (step ((start [] (pc := 0x4014)).withFetchWord 8 0x78)) (fun t => decide (t.pc = 1)) = true := by decide

/-- A write keeps the canonical form, and a byte that reads as unlisted is not listed. -/
theorem test_memory_write :
    Memory.write [(1, 5), (9, 6)] 4 7 = [(1, 5), (4, 7), (9, 6)] ∧ Memory.write [(1, 5), (9, 6)] 1 0 = [(9, 6)] ∧
      Memory.write [(1, 5)] 1 8 = [(1, 8)] ∧ Memory.write [] 3 0 = [] := by decide

/-! ### Witnesses: for each statement with hypotheses, a state and operands that meet them, clause by clause at the boundaries -/

/-- An outcome that is compared by evaluation. -/
theorem next_of {r : Result} {t : State} (h : shows r (fun u => decide (u = t)) = true) : r = .next t := by
  unfold shows at h
  split at h
  · rw [of_decide_eq_true h]
  · cases h

theorem fault_of {r : Result} {f : Fault} (h : faults r f = true) : r = .fault f := by
  unfold faults at h
  split at h
  · rw [of_decide_eq_true h]
  · cases h

/-- A machine that meets the invariant (it is not `State.reset`): one bank, `CHR_RAM` present. -/
theorem start_inv (prog : List Byte) (a x y : Byte) (pc : Word) (answers : List Byte)
    (hw : (Memory.ofBytesFrom (pc.toNat % 16384) prog).wf = true)
    (hb : (Memory.ofBytesFrom (pc.toNat % 16384) prog).within 16384 = true) :
    (start prog a x y 0x34 [] pc answers).Inv where
  ramWf := rfl
  ramWithin := rfl
  chrRamOk := by intro m hm; cases hm; exact ⟨rfl, rfl⟩
  chrRamPresent := rfl
  cartOk := by
    show Cartridge.wellFormed { Cartridge.blank with prg := Memory.ofBytesFrom (pc.toNat % 16384) prog } = true
    generalize Memory.ofBytesFrom (pc.toNat % 16384) prog = prg at hw hb
    have h1 : Cartridge.prgBytes { Cartridge.blank with prg := prg } = 16384 := by
      show Cartridge.blank.prgBytes = 16384; decide
    have h2 : Cartridge.prgCount { Cartridge.blank with prg := prg } = 1 := rfl
    have h3 : supportedMappers.contains (Cartridge.mapperId { Cartridge.blank with prg := prg }) = true := by
      show supportedMappers.contains Cartridge.blank.mapperId = true; decide
    simp only [Cartridge.wellFormed, h1, h2, h3, hw, hb]
    rfl
  banksFixed := rfl
  alwaysOne := show (Status.ofByte 0x34).u = true by decide
  interruptDisable := show (Status.ofByte 0x34).i = true by decide
  notFaulted := rfl
  launched := rfl

/-- A two-bank machine with one graphics bank that meets the invariant. -/
def withGraphics (chr : Memory) : State :=
  { State.reset with
    cart := { header := { Cartridge.blank.header with prgSize := 2, chrSize := 1 }, prg := [(5, 9)], chr := chr }
    banks := BankSlots.initial 2, chrRam := none }

theorem withGraphics_inv : (withGraphics [(3, 7)]).Inv where
  ramWf := rfl
  ramWithin := rfl
  chrRamOk := by intro m hm; cases hm
  chrRamPresent := by decide
  cartOk := by decide
  banksFixed := rfl
  alwaysOne := by decide
  interruptDisable := by decide
  notFaulted := rfl
  launched := rfl

theorem witness_EncodeOfDecodeIsIdentity : decode [0xAD, 0x34, 0x12, 0xEA] = .instr (.ldaAbs 0x1234) [0xEA] := by decide

theorem witness_OpcodeOutcomeMap :
    (0xFF : Byte) ∉ ([0xA9, 0xA5, 0xB5, 0xAD, 0xBD, 0xB9, 0xA1, 0xB1, 0xA2, 0xA6, 0xB6, 0xAE, 0xBE, 0xA0, 0xA4, 0xB4, 0xAC, 0xBC, 0x85, 0x95, 0x8D, 0x9D, 0x99, 0x81, 0x91, 0x86, 0x96, 0x8E, 0x84, 0x94, 0x8C, 0x29, 0x25, 0x35, 0x2D, 0x3D, 0x39, 0x21, 0x31, 0xC9, 0xC5, 0xD5, 0xCD, 0xDD, 0xD9, 0xC1, 0xD1, 0xF0, 0x9A, 0xD8, 0x78] : List Byte) ∧ (0xFF : Byte) ∉ ([0x80, 0x82, 0x88, 0x89, 0x8A, 0x90, 0x98, 0x9C, 0x9E, 0xA8, 0xAA, 0xB0, 0xB8, 0xBA] : List Byte) ∧
      (0x00 : Byte) ∉ ([0xA9, 0xA5, 0xB5, 0xAD, 0xBD, 0xB9, 0xA1, 0xB1, 0xA2, 0xA6, 0xB6, 0xAE, 0xBE, 0xA0, 0xA4, 0xB4, 0xAC, 0xBC, 0x85, 0x95, 0x8D, 0x9D, 0x99, 0x81, 0x91, 0x86, 0x96, 0x8E, 0x84, 0x94, 0x8C, 0x29, 0x25, 0x35, 0x2D, 0x3D, 0x39, 0x21, 0x31, 0xC9, 0xC5, 0xD5, 0xCD, 0xDD, 0xD9, 0xC1, 0xD1, 0xF0, 0x9A, 0xD8, 0x78] : List Byte) ∧ (0x00 : Byte) ∉ ([0x80, 0x82, 0x88, 0x89, 0x8A, 0x90, 0x98, 0x9C, 0x9E, 0xA8, 0xAA, 0xB0, 0xB8, 0xBA] : List Byte) := by decide

theorem witness_LengthLaw : decodeOpcode 0xAD = some (.lda, .abs, 3) ∧ decodeOpcode 0xAA = some (.ldx, .acc, 1) := by decide

theorem witness_StepRunsTheDecodedInstruction :
    let s := start [0xAD, 0x34, 0x12]
    s.Ready ∧ fetchBytes 3 s = .ok ([0xAD, 0x34, 0x12], { s with pc := 0x8003 }) ∧
      decode [0xAD, 0x34, 0x12] = .instr (.ldaAbs 0x1234) [] := by decide +kernel

/-- At the top of the address space, so that the addresses wrap. -/
theorem witness_StepRunsTheStoredInstruction :
    let s := start [0xAD, 0x34] (ram := [(0, 0x12)]) (pc := 0xFFFE)
    s.Ready ∧ ∀ k, k < (encode (.ldaAbs 0x1234)).length →
      peek s (s.pc + BitVec.ofNat 16 k) = (encode (.ldaAbs 0x1234))[k]? := by decide

theorem witness_StepAdvancesPcPastTheInstruction :
    let s := start [0x78]
    let b := start [0xF0, 0x10]
    fetchInstr s = .ok (.sei, { s with pc := 0x8001 }) ∧ step s = .next { s with pc := 0x8001 } ∧ Instr.sei.op ≠ .beq ∧
      fetchInstr b = .ok (.beq 0x10, { b with pc := 0x8002 }) ∧ step b = .next { b with pc := 0x8002 } ∧ b.p.z = false :=
  ⟨by decide +kernel, next_of (by decide +kernel), by decide +kernel, by decide +kernel, next_of (by decide +kernel), by decide +kernel⟩

/-! Bytes read in each region, at both ends of each (`Reads`). -/

theorem witness_Reads_ram :
    Reads (start [] (ram := [(0, 3), (2047, 9)])) 0x1FFF 9 (start [] (ram := [(0, 3), (2047, 9)])) ∧
      Reads (start [] (ram := [(0, 3), (2047, 9)])) 0x0000 3 (start [] (ram := [(0, 3), (2047, 9)])) :=
  ⟨.inl ⟨by decide, by decide, rfl⟩, .inl ⟨by decide, by decide, rfl⟩⟩

theorem witness_Reads_device :
    Reads (start [] (answers := [5])) 0x2000 5 { start [] with events := [.vidRead 0], vidReads := 1 } ∧
      Reads (start [] (answers := [5])) 0x3FFF 5 { start [] with events := [.vidRead 7], vidReads := 1 } :=
  ⟨.inr (.inl ⟨by decide, by decide, rfl, rfl⟩), .inr (.inl ⟨by decide, by decide, rfl, rfl⟩)⟩

theorem witness_Reads_program :
    Reads (start [7]) 0x8000 7 (start [7]) ∧ Reads (start [7] (pc := 0xFFFF)) 0xBFFF 7 (start [7] (pc := 0xFFFF)) ∧
      Reads (start [7]) 0xC000 7 (start [7]) ∧ Reads (start [7] (pc := 0xFFFF)) 0xFFFF 7 (start [7] (pc := 0xFFFF)) :=
  ⟨.inr (.inr ⟨by decide, by decide, by decide, rfl⟩), .inr (.inr ⟨by decide, by decide, by decide, rfl⟩),
    .inr (.inr ⟨by decide, by decide, by decide, rfl⟩), .inr (.inr ⟨by decide, by decide, by decide, rfl⟩)⟩

/-- Every clause of `ReadFaults`, at both ends; the last in a state no run reaches. -/
theorem witness_ReadFaults :
    ReadFaults (start []) 0x4014 (.unmappedAddress 0x4014) ∧ ReadFaults (start []) 0x4000 (.unimplementedRegion 0x4000) ∧
      ReadFaults (start []) 0x4013 (.unimplementedRegion 0x4013) ∧ ReadFaults (start []) 0x4015 (.unimplementedRegion 0x4015) ∧
      ReadFaults (start []) 0x401F (.unimplementedRegion 0x401F) ∧ ReadFaults (start []) 0x4020 (.unmappedAddress 0x4020) ∧
      ReadFaults (start []) 0x7FFF (.unmappedAddress 0x7FFF) ∧
      ReadFaults { start [] with banks := ⟨1, 1, 0⟩ } 0x8000 (.internalBoundsError 16384) ∧
      ReadFaults { start [] with banks := ⟨1, 1, 0⟩ } 0xFFFF (.internalBoundsError 32767) :=
  ⟨.inl ⟨by decide, rfl⟩, .inr (.inl ⟨by decide, by decide, by decide, rfl⟩), .inr (.inl ⟨by decide, by decide, by decide, rfl⟩),
    .inr (.inl ⟨by decide, by decide, by decide, rfl⟩), .inr (.inl ⟨by decide, by decide, by decide, rfl⟩),
    .inr (.inr (.inl ⟨by decide, by decide, rfl⟩)), .inr (.inr (.inl ⟨by decide, by decide, rfl⟩)),
    .inr (.inr (.inr ⟨by decide, by decide, by decide⟩)), .inr (.inr (.inr ⟨by decide, by decide, by decide⟩))⟩

/-- No address falls under two clauses of `Reads` and `ReadFaults` (they share no address, or no program offset). -/
theorem witness_Reads_boundaries :
    ((0x1FFF : Word).toNat ≤ 0x1FFF ∧ ¬ 0x2000 ≤ (0x1FFF : Word).toNat) ∧
      ((0x2000 : Word).toNat ≤ 0x3FFF ∧ ¬ (0x2000 : Word).toNat ≤ 0x1FFF) ∧
      (¬ 0x4020 ≤ (0x401F : Word).toNat ∧ ¬ (0x4020 : Word).toNat ≤ 0x401F) ∧
      (¬ 0x8000 ≤ (0x7FFF : Word).toNat ∧ ¬ (0x8000 : Word).toNat ≤ 0x7FFF) := by decide

/-- Every clause of `Writes`, at both ends. -/
theorem witness_Writes :
    Writes (start []) 0x0000 5 { start [] with ram := [(0, 5)] } ∧ Writes (start []) 0x1FFF 5 { start [] with ram := [(2047, 5)] } ∧
      Writes (start []) 0x2000 5 { start [] with events := [.vidWrite 0 5] } ∧
      Writes (start []) 0x3FFF 5 { start [] with events := [.vidWrite 7 5] } ∧
      Writes (start []) 0x4014 5 { start [] with events := [.oamDmaTrigger 5] } :=
  ⟨.inl ⟨by decide, rfl⟩, .inl ⟨by decide, rfl⟩, .inr (.inl ⟨by decide, by decide, rfl⟩),
    .inr (.inl ⟨by decide, by decide, rfl⟩), .inr (.inr ⟨by decide, rfl⟩)⟩

/-- Every clause of `WriteFaults`, at both ends. -/
theorem witness_WriteFaults :
    WriteFaults 0x4000 (.unimplementedRegion 0x4000) ∧ WriteFaults 0x4013 (.unimplementedRegion 0x4013) ∧
      WriteFaults 0x4015 (.unimplementedRegion 0x4015) ∧ WriteFaults 0x401F (.unimplementedRegion 0x401F) ∧
      WriteFaults 0x4020 (.readOnlyViolation 0x4020) ∧ WriteFaults 0xFFFF (.readOnlyViolation 0xFFFF) :=
  ⟨.inl ⟨by decide, by decide, by decide, rfl⟩, .inl ⟨by decide, by decide, by decide, rfl⟩,
    .inl ⟨by decide, by decide, by decide, rfl⟩, .inl ⟨by decide, by decide, by decide, rfl⟩, .inr ⟨by decide, rfl⟩,
    .inr ⟨by decide, rfl⟩⟩

theorem witness_IllegalOpcodeFaults :
    (start [3]).Ready ∧ Reads (start [3]) (start [3]).pc 3 (start [3]) ∧ decodeOpcode 3 = none ∧
      decodeOpcode 0x92 = none :=
  ⟨⟨rfl, rfl⟩, .inr (.inr ⟨by decide, by decide, by decide, rfl⟩), by decide, by decide⟩

theorem witness_UnimplementedInstructionFaults :
    (start [0xAA]).Ready ∧ Reads (start [0xAA]) (start [0xAA]).pc 0xAA (start [0xAA]) ∧
      ((0xAA : Byte), Op.ldx, Mode.acc) ∈ ([
        (0x80, .sty, .imm), (0x82, .stx, .imm), (0x88, .sty, .imp), (0x89, .sta, .imm), (0x8A, .stx, .acc),
        (0x90, .sty, .rel), (0x98, .sty, .imp), (0x9C, .sty, .abx), (0x9E, .stx, .aby), (0xA8, .ldy, .imp),
        (0xAA, .ldx, .acc), (0xB0, .ldy, .rel), (0xB8, .ldy, .imp), (0xBA, .ldx, .imp)] : List (Byte × Op × Mode)) :=
  ⟨⟨rfl, rfl⟩, .inr (.inr ⟨by decide, by decide, by decide, rfl⟩), by decide⟩

/-- Each clause: the opcode at 0x4015; an illegal and an unimplemented opcode; the first operand at 0x2000 past RAM; the operand
bytes of an absolute load that run from the device window into 0x4000. -/
theorem witness_FirstFaultInActionOrderWins :
    ((start [] (pc := 0x4015)).Ready ∧ (start [3]).Ready ∧ (start [0x80]).Ready) ∧
      ReadFaults (start [] (pc := 0x4015)) 0x4015 (.unimplementedRegion 0x4015) ∧
      (fetch8 (start [3]) = .ok (3, { start [3] with pc := 0x8001 }) ∧ decodeOpcode 3 = none) ∧
      (fetch8 (start [0x80]) = .ok (0x80, { start [0x80] with pc := 0x8001 }) ∧ decode [0x80] = .unimplemented .sty .imm 0x80) ∧
      (let s := start [] (pc := 0x3FFF) (answers := [0xA9, 0xAD])
       let t := { s with pc := 0x4000, events := [.vidRead 7], vidAnswers := [0xAD], vidReads := 1 }
       fetch8 s = .ok (0xA9, t) ∧ decodeOpcode 0xA9 = some (.lda, .imm, 2) ∧ (dispatch .lda .imm).isSome = true ∧
         ReadFaults t t.pc (.unimplementedRegion 0x4000)) ∧
      (let s := start [] (pc := 0x3FFF) (answers := [0xAD])
       let t := { s with pc := 0x4000, events := [.vidRead 7], vidAnswers := [], vidReads := 1 }
       fetch8 s = .ok (0xAD, t) ∧ decodeOpcode 0xAD = some (.lda, .abs, 3) ∧ (dispatch .lda .abs).isSome = true ∧
         ReadFaults t t.pc (.unimplementedRegion 0x4000)) ∧
      (let s := start [] (pc := 0x3FFE) (answers := [0xAD, 0x10])
       let t := { s with pc := 0x3FFF, events := [.vidRead 6], vidAnswers := [0x10], vidReads := 1 }
       let u := { s with pc := 0x4000, events := [.vidRead 6, .vidRead 7], vidAnswers := [], vidReads := 2 }
       fetch8 s = .ok (0xAD, t) ∧ decodeOpcode 0xAD = some (.lda, .abs, 3) ∧ (dispatch .lda .abs).isSome = true ∧
         fetch8 t = .ok (0x10, u) ∧ ReadFaults u u.pc (.unimplementedRegion 0x4000)) :=
  ⟨⟨⟨rfl, rfl⟩, ⟨rfl, rfl⟩, ⟨rfl, rfl⟩⟩, .inr (.inl ⟨by decide +kernel, by decide +kernel, by decide +kernel, rfl⟩), ⟨by decide +kernel, by decide +kernel⟩, ⟨by decide +kernel, by decide +kernel⟩,
    ⟨by decide, by decide, by decide, .inr (.inl ⟨by decide, by decide, by decide, rfl⟩)⟩,
    ⟨by decide, by decide, by decide, .inr (.inl ⟨by decide, by decide, by decide, rfl⟩)⟩,
    ⟨by decide, by decide, by decide, by decide, .inr (.inl ⟨by decide, by decide, by decide, rfl⟩)⟩⟩

theorem witness_FaultedMachineHasNoStep :
    { start [0x78] with fault := some (.unmappedAddress 0x4014) }.fault = some (.unmappedAddress 0x4014) := rfl

theorem witness_FaultIsLatchedAndEndsTheRun : step (start [3]) = .fault (.illegalOpcode 3 0x8000) :=
  fault_of (by decide)

/-- Both ends of each row of the routing table. -/
theorem witness_RoutingTable :
    route 0x0000 = .ram 0 ∧ route 0x1FFF = .ram 2047 ∧ route 0x2000 = .vid 0 ∧ route 0x3FFF = .vid 7 ∧ route 0x4014 = .oamDma ∧
      route 0x4000 = .audioIo ∧ route 0x4013 = .audioIo ∧ route 0x4015 = .audioIo ∧ route 0x4017 = .audioIo ∧
      route 0x4018 = .testMode ∧ route 0x401F = .testMode ∧ route 0x4020 = .cart ∧ route 0xFFFF = .cart := by decide

theorem witness_RamAccessesAreMirrored :
    (0x1FFF : Word).toNat ≤ 0x1FFF ∧ (start []).ram.wf = true ∧ SameRamCell 0x07FF 0x1FFF ∧
      (0x0000 : Word).toNat ≤ 0x1FFF ∧ ¬ SameRamCell 0x0000 0x1FFF := by
  unfold SameRamCell; decide

theorem witness_UnmappedAddressFaults :
    ((0x4014 : Word).toNat = 0x4014) ∧ (0x4020 ≤ (0x4020 : Word).toNat ∧ (0x4020 : Word).toNat ≤ 0x7FFF) ∧
      (0x4020 ≤ (0x7FFF : Word).toNat ∧ (0x7FFF : Word).toNat ≤ 0x7FFF) ∧
      busRead 0x7FFF (start []) = .error (.unmappedAddress 0x7FFF) ∧
      busRead 0x4014 (start []) = .error (.unmappedAddress 0x4014) ∧
      step (start [0xAD, 0x20, 0x40]) = .fault (.unmappedAddress 0x4020) :=
  ⟨by decide, by decide, by decide, by decide, by decide, fault_of (by decide)⟩

theorem witness_ReadOnlyViolationFaults :
    0x4020 ≤ (0x4020 : Word).toNat ∧ 0x4020 ≤ (0xFFFF : Word).toNat ∧
      busWrite 0x4020 1 (start []) = .error (.readOnlyViolation 0x4020) ∧
      step (start [0x8D, 0x20, 0x40]) = .fault (.readOnlyViolation 0x4020) :=
  ⟨by decide, by decide, by decide, fault_of (by decide)⟩

theorem witness_UnimplementedRegionFaults :
    (0x4000 ≤ (0x4013 : Word).toNat ∧ (0x4013 : Word).toNat ≤ 0x401F ∧ (0x4013 : Word).toNat ≠ 0x4014) ∧
      (0x4000 ≤ (0x401F : Word).toNat ∧ (0x401F : Word).toNat ≤ 0x401F ∧ (0x401F : Word).toNat ≠ 0x4014) ∧
      busRead 0x4015 (start []) = .error (.unimplementedRegion 0x4015) ∧
      busWrite 0x4000 1 (start []) = .error (.unimplementedRegion 0x4000) ∧
      step (start [0x8D, 0x15, 0x40]) = .fault (.unimplementedRegion 0x4015) ∧
      step (start [] (pc := 0x4018)) = .fault (.unimplementedRegion 0x4018) :=
  ⟨by decide, by decide, by decide, by decide, fault_of (by decide), fault_of (by decide)⟩

theorem witness_DeviceWindowAccesses :
    (0x2000 ≤ (0x2000 : Word).toNat ∧ (0x2000 : Word).toNat ≤ 0x3FFF) ∧
      (0x2000 ≤ (0x3FFF : Word).toNat ∧ (0x3FFF : Word).toNat ≤ 0x3FFF) := by decide

/-- A word read from RAM into the device window, one that faults at once, one that faults at its second byte, and one that wraps. -/
theorem witness_WordReadIsTwoRoutedByteReads :
    (let s := start [] (ram := [(2047, 0x34)]) (answers := [0x12])
     Reads s 0x1FFF 0x34 s ∧ Reads s (BitVec.ofNat 16 ((0x1FFF : Word).toNat + 1)) 0x12
       { start [] (ram := [(2047, 0x34)]) with events := [.vidRead 0], vidReads := 1 }) ∧
      ReadFaults (start []) 0x4014 (.unmappedAddress 0x4014) ∧
      (Reads (start [] (answers := [1])) 0x3FFF 1 { start [] with events := [.vidRead 7], vidReads := 1 } ∧
        ReadFaults { start [] with events := [.vidRead 7], vidReads := 1 } (BitVec.ofNat 16 ((0x3FFF : Word).toNat + 1))
          (.unimplementedRegion 0x4000)) ∧
      Reads (start [] (ram := [(0, 8)])) (BitVec.ofNat 16 ((0xFFFF : Word).toNat + 1)) 8 (start [] (ram := [(0, 8)])) :=
  ⟨⟨.inl ⟨by decide, by decide, rfl⟩, .inr (.inl ⟨by decide, by decide, rfl, rfl⟩)⟩, .inl ⟨by decide, rfl⟩,
    ⟨.inr (.inl ⟨by decide, by decide, rfl, rfl⟩), .inr (.inl ⟨by decide, by decide, by decide, rfl⟩)⟩,
    .inl ⟨by decide, by decide, rfl⟩⟩

theorem witness_ProgramWindowTranslation :
    (0x8000 ≤ (0x8000 : Word).toNat ∧ (0xBFFF : Word).toNat ≤ 0xBFFF ∧ 0xC000 ≤ (0xC000 : Word).toNat) ∧
      (BankSlots.initial 2).prgLo < 2 ∧ (BankSlots.initial 2).prgHi < 2 ∧
      translateProgram (BankSlots.initial 2) 0xBFFF = 16383 ∧ translateProgram (BankSlots.initial 2) 0xC000 = 16384 := by decide

theorem witness_OneBankShowsInBothWindows :
    ((start [7]).Inv ∧ 0x8000 ≤ (0xBFFF : Word).toNat ∧ (start [7]).cart.prgCount = 1 ∧ (0xBFFF : Word).toNat ≤ 0xBFFF) ∧
      (withGraphics [(3, 7)]).Inv ∧ 0x8000 ≤ (0xFFFF : Word).toNat ∧ (withGraphics [(3, 7)]).cart.prgCount = 2 :=
  ⟨⟨start_inv [7] 0 0 0 0x8000 [] (by decide) (by decide), by decide, by decide, by decide⟩, withGraphics_inv, by decide, by decide⟩

theorem witness_GraphicsTranslationStaysInStorage :
    (start [7]).Inv ∧ (start [7]).cart.chrCount = 0 ∧ (withGraphics [(3, 7)]).Inv ∧ (withGraphics [(3, 7)]).cart.chrCount ≠ 0 :=
  ⟨start_inv [7] 0 0 0 0x8000 [] (by decide) (by decide), by decide, withGraphics_inv, by decide⟩

/-- A strategy that switches the low program bank: a selection in range, one at the count, and an address that is no control
address. -/
theorem witness_ControlWriteSelectsOrRejects :
    let m : MapperStrategy := ⟨fun a => decide (a = 0x8000), fun slots _ v => { slots with prgLo := v.toNat }⟩
    let s := start []
    m.isControl 0x8000 = true ∧ (m.controlWrite s.banks 0x8000 0).prgLo < s.cart.prgCount ∧
      (m.controlWrite s.banks 0x8000 0).prgHi < s.cart.prgCount ∧
      (m.controlWrite s.banks 0x8000 0).chr < max s.cart.chrCount 1 ∧
      s.cart.prgCount ≤ (m.controlWrite s.banks 0x8000 1).prgLo ∧ m.isControl 0x8001 = false := by decide

/-- A file that loads: a header and one program bank of the byte `b`. -/
def oneBankFile (b : Byte) : List Byte :=
  [0x4E, 0x45, 0x53, 0x1A, 1, 0, 0, 0, 0, 0, 0, 0, 0, 0, 0, 0] ++ List.replicate 16384 b

theorem oneBankFile_length (b : Byte) : (oneBankFile b).length = 16400 := by
  unfold oneBankFile; rw [List.length_append, List.length_replicate]; rfl

/-- V-LOAD row 5: it loads. -/
theorem oneBankFile_loads (b : Byte) : ∃ c, Cartridge.load (oneBankFile b) = .ok c ∧ c.prgCount = 1 ∧ c.chrCount = 0 := by
  have hp : Header.parse (oneBankFile b) =
      some (⟨0x4E, 0x45, 0x53, 0x1A, 1, 0, 0, 0, 0, 0, 0, 0, 0, 0, 0, 0⟩, List.replicate 16384 b) := rfl
  have hm : supportedMappers.contains (Header.mapperId ⟨0x4E, 0x45, 0x53, 0x1A, 1, 0, 0, 0, 0, 0, 0, 0, 0, 0, 0, 0⟩) = true := by
    decide
  refine ⟨⟨⟨0x4E, 0x45, 0x53, 0x1A, 1, 0, 0, 0, 0, 0, 0, 0, 0, 0, 0, 0⟩,
    Memory.ofBytes ((List.replicate 16384 b).take 16384), Memory.ofBytes (((List.replicate 16384 b).drop 16384).take 0)⟩, ?_, rfl, rfl⟩
  unfold Cartridge.load Cartridge.parse
  rw [hp]
  dsimp only
  rw [if_pos (by decide), if_neg (by rw [List.length_replicate]; decide)]
  exact if_pos hm

/-- Each clause: 15 bytes; a wrong magic; a bank missing; mapper 0x42; a file that loads; a load error. -/
theorem witness_LoadChecksInOrder :
    ([] : List Byte).length < 16 ∧
      (16 ≤ (List.replicate 16 (0 : Byte)).length ∧ (List.replicate 16 (0 : Byte)).getD 0 0 ≠ 0x4E) ∧
      (let f : List Byte := [0x4E, 0x45, 0x53, 0x1A, 2, 0, 0, 0, 0, 0, 0, 0, 0, 0, 0, 0]
       16 ≤ f.length ∧ (f.getD 0 0 = 0x4E ∧ f.getD 1 0 = 0x45 ∧ f.getD 2 0 = 0x53 ∧ f.getD 3 0 = 0x1A) ∧
         f.length < 16 + (f.getD 4 0).toNat * 16384 + (f.getD 5 0).toNat * 8192) ∧
      (let f : List Byte := [0x4E, 0x45, 0x53, 0x1A, 0, 0, 0x20, 0x40, 0, 0, 0, 0, 0, 0, 0, 0]
       16 + (f.getD 4 0).toNat * 16384 + (f.getD 5 0).toNat * 8192 ≤ f.length ∧
         (f.getD 0 0 = 0x4E ∧ f.getD 1 0 = 0x45 ∧ f.getD 2 0 = 0x53 ∧ f.getD 3 0 = 0x1A) ∧
         ((f.getD 7 0 &&& 0xF0) ||| (f.getD 6 0 >>> 4)) ≠ 0) ∧
      (16 + ((oneBankFile 5).getD 4 0).toNat * 16384 + ((oneBankFile 5).getD 5 0).toNat * 8192 ≤ (oneBankFile 5).length ∧
        ((oneBankFile 5).getD 0 0 = 0x4E ∧ (oneBankFile 5).getD 1 0 = 0x45 ∧ (oneBankFile 5).getD 2 0 = 0x53 ∧
          (oneBankFile 5).getD 3 0 = 0x1A) ∧
        (((oneBankFile 5).getD 7 0 &&& 0xF0) ||| ((oneBankFile 5).getD 6 0 >>> 4)) = 0) ∧
      Cartridge.load [] = .error .truncatedImage :=
  ⟨by decide, by decide, by decide, by decide,
    ⟨by rw [oneBankFile_length]; exact Nat.le_refl 16400, ⟨rfl, rfl, rfl, rfl⟩, rfl⟩, rfl⟩

theorem witness_PowerOnGivesALaunchState :
    let v : PowerOnValues := ⟨1, 2, 3, 4, [(2047, 5)], [(8191, 6)]⟩
    (∃ c, Cartridge.load (oneBankFile 5) = .ok c ∧ 1 ≤ c.prgCount) ∧ v.ram.wf = true ∧ v.ram.within 2048 = true ∧
      v.chrRam.wf = true ∧ v.chrRam.within 8192 = true := by
  obtain ⟨c, h, hn, -⟩ := oneBankFile_loads 5
  exact ⟨⟨c, h, by omega⟩, by decide, by decide, by decide, by decide⟩

/-- The other case: a file that loads with `PRG_COUNT` = 0 (V-LOAD row 12). -/
theorem witness_PowerOnGivesALaunchState_noBank :
    ∃ c, Cartridge.load [0x4E, 0x45, 0x53, 0x1A, 0, 0, 0, 0, 0, 0, 0, 0, 0, 0, 0, 0] = .ok c ∧ c.prgCount = 0 :=
  ⟨_, rfl, rfl⟩

/-- A machine before its first `reset()`, and one `reset()` launches. -/
theorem witness_MachineNeverResetHasNoStep :
    let v : PowerOnValues := ⟨1, 2, 3, 4, [], []⟩
    let s := State.constructed Cartridge.blank (BankSlots.initial 1) v
    s.fault = none ∧ s.resetDone = false ∧ resetCall s = .next { s with pc := 0x0000, resetDone := true } :=
  ⟨rfl, rfl, rfl⟩

theorem witness_ResetCallWritesPcOnly : (start [0x78]).Inv := start_inv [0x78] 0 0 0 0x8000 [] (by decide) (by decide)

theorem witness_StepKeepsInvariant : (start [0x78]).Inv ∧ step (start [0x78]) = .next { start [0x78] with pc := 0x8001 } :=
  ⟨start_inv [0x78] 0 0 0 0x8000 [] (by decide) (by decide), next_of (by decide)⟩

theorem witness_StepFaultsAreTheFiveReachableOnes :
    (start [3]).Inv ∧ step (start [3]) = .fault (.illegalOpcode 3 0x8000) ∧ (start [0xA9, 5]).Inv :=
  ⟨start_inv [3] 0 0 0 0x8000 [] (by decide) (by decide), fault_of (by decide), start_inv [0xA9, 5] 0 0 0 0x8000 [] (by decide) (by decide)⟩

theorem witness_StepNeverChangesCartridgeSlotsOrLatch :
    step (start [0x9A] (x := 7)) = .next { start [0x9A] (x := 7) with sp := 7, pc := 0x8001 } :=
  next_of (by decide)

/-- Data addresses of the memory forms, in RAM, the device window and program storage: the zero-page pointer forms too. -/
theorem witness_loads_and_stores_addresses :
    BitVec.ofNat 16 ((0x1FF0 : Word).toNat + (0x0F : Byte).toNat) = (0x1FFF : Word) ∧
      BitVec.ofNat 16 ((0xFFFF : Word).toNat + (0x01 : Byte).toNat) = (0x0000 : Word) ∧
      BitVec.ofNat 16 (zeroPageWord (start [] (ram := [(0, 0x20), (255, 0x05)])) ((0xFE : Byte).toNat + (0x01 : Byte).toNat)) = (0x2005 : Word) ∧
      BitVec.ofNat 16 (zeroPageWord (start [] (ram := [(0, 0xBF), (255, 0xFF)])) (0xFF : Byte).toNat + (0x00 : Byte).toNat) = (0xBFFF : Word) := by
  decide

/-- `LdaLoadsAccumulator`, `LdxLoadsIndexX`, `LdyLoadsIndexY`, `AndMasksAccumulator`, `CmpComparesAccumulator`: a completing read at
each effective address (ABS, ABX, ABY, IZX, IZY). -/
theorem witness_LdaLoadsAccumulator :
    let s := start [] (x := 1) (y := 2) (ram := [(0, 9), (16, 0), (17, 3), (0x300, 4), (0x302, 6)])
    Reads s 0x0300 4 s ∧ Reads s (BitVec.ofNat 16 ((0x02FF : Word).toNat + s.x.toNat)) 4 s ∧
      Reads s (BitVec.ofNat 16 ((0xFFFE : Word).toNat + s.y.toNat)) 9 s ∧
      Reads s (BitVec.ofNat 16 (zeroPageWord s ((15 : Byte).toNat + s.x.toNat))) 4 s ∧
      Reads s (BitVec.ofNat 16 (zeroPageWord s (16 : Byte).toNat + s.y.toNat)) 6 s :=
  ⟨.inl ⟨by decide, by decide, rfl⟩, .inl ⟨by decide, by decide, rfl⟩, .inl ⟨by decide, by decide, rfl⟩,
    .inl ⟨by decide, by decide, rfl⟩, .inl ⟨by decide, by decide, rfl⟩⟩

theorem witness_LdxLoadsIndexX :
    let s := start [] (y := 2) (ram := [(0, 9), (0x300, 4)])
    Reads s 0x0300 4 s ∧ Reads s (BitVec.ofNat 16 ((0xFFFE : Word).toNat + s.y.toNat)) 9 s :=
  ⟨.inl ⟨by decide, by decide, rfl⟩, .inl ⟨by decide, by decide, rfl⟩⟩

theorem witness_LdyLoadsIndexY :
    let s := start [7] (x := 1)
    Reads s 0x8000 7 s ∧ Reads s (BitVec.ofNat 16 ((0x7FFF : Word).toNat + s.x.toNat)) 7 s :=
  ⟨.inr (.inr ⟨by decide, by decide, by decide, rfl⟩), .inr (.inr ⟨by decide, by decide, by decide, rfl⟩)⟩

theorem witness_AndMasksAccumulator :
    let s := start [] (a := 0xF0) (x := 1) (y := 2) (ram := [(0, 9), (16, 0), (17, 3), (0x300, 4), (0x302, 6)])
    Reads s 0x0300 4 s ∧ Reads s (BitVec.ofNat 16 ((0x02FF : Word).toNat + s.x.toNat)) 4 s ∧
      Reads s (BitVec.ofNat 16 ((0xFFFE : Word).toNat + s.y.toNat)) 9 s ∧
      Reads s (BitVec.ofNat 16 (zeroPageWord s ((15 : Byte).toNat + s.x.toNat))) 4 s ∧
      Reads s (BitVec.ofNat 16 (zeroPageWord s (16 : Byte).toNat + s.y.toNat)) 6 s :=
  ⟨.inl ⟨by decide, by decide, rfl⟩, .inl ⟨by decide, by decide, rfl⟩, .inl ⟨by decide, by decide, rfl⟩,
    .inl ⟨by decide, by decide, rfl⟩, .inl ⟨by decide, by decide, rfl⟩⟩

/-- In the device window, where the read leaves its event. -/
theorem witness_CmpComparesAccumulator :
    let s := start [] (x := 1) (y := 2) (ram := [(16, 2), (17, 0x20)]) (answers := [6])
    let t := fun slot => { s with events := [.vidRead slot], vidAnswers := [], vidReads := 1 }
    Reads s 0x2002 6 (t 2) ∧ Reads s (BitVec.ofNat 16 ((0x1FFF : Word).toNat + s.x.toNat)) 6 (t 0) ∧
      Reads s (BitVec.ofNat 16 ((0x3FFD : Word).toNat + s.y.toNat)) 6 (t 7) ∧
      Reads s (BitVec.ofNat 16 (zeroPageWord s ((15 : Byte).toNat + s.x.toNat))) 6 (t 2) ∧
      Reads s (BitVec.ofNat 16 (zeroPageWord s (16 : Byte).toNat + s.y.toNat)) 6 (t 4) :=
  ⟨.inr (.inl ⟨by decide, by decide, rfl, rfl⟩), .inr (.inl ⟨by decide, by decide, rfl, rfl⟩),
    .inr (.inl ⟨by decide, by decide, rfl, rfl⟩), .inr (.inl ⟨by decide, by decide, rfl, rfl⟩),
    .inr (.inl ⟨by decide, by decide, rfl, rfl⟩)⟩

theorem witness_StaStoresAccumulator :
    let s := start [] (a := 5) (x := 1) (y := 2) (ram := [(16, 0xFF), (17, 0x1F)])
    Writes s 0x4014 s.a { s with events := [.oamDmaTrigger 5] } ∧
      Writes s (BitVec.ofNat 16 ((0x1FFF : Word).toNat + s.x.toNat)) s.a { s with events := [.vidWrite 0 5] } ∧
      Writes s (BitVec.ofNat 16 ((0xFFFE : Word).toNat + s.y.toNat)) s.a { s with ram := [(0, 5), (16, 0xFF), (17, 0x1F)] } ∧
      Writes s (BitVec.ofNat 16 (zeroPageWord s ((15 : Byte).toNat + s.x.toNat))) s.a
        { s with ram := [(16, 0xFF), (17, 0x1F), (2047, 5)] } ∧
      Writes s (BitVec.ofNat 16 (zeroPageWord s (16 : Byte).toNat + s.y.toNat)) s.a { s with events := [.vidWrite 1 5] } :=
  ⟨.inr (.inr ⟨by decide, rfl⟩), .inr (.inl ⟨by decide, by decide, rfl⟩), .inl ⟨by decide, by rfl⟩, .inl ⟨by decide, by rfl⟩,
    .inr (.inl ⟨by decide, by decide, rfl⟩)⟩

theorem witness_StxStoresIndexX : Writes (start [] (x := 5)) 0x1FFF 5 { start [] (x := 5) with ram := [(2047, 5)] } :=
  .inl ⟨by decide, rfl⟩

theorem witness_StyStoresIndexY :
    Writes (start [] (y := 5)) 0x3FFF 5 { start [] (y := 5) with events := [.vidWrite 7 5] } :=
  .inr (.inl ⟨by decide, by decide, rfl⟩)

theorem witness_BeqBranchesOnZero :
    (let s := start [0xF0, 0x80]
     s.Ready ∧ fetchBytes 2 s = .ok ([0xF0, 0x80], { s with pc := 0x8002 })) ∧
      (let s := start [] (pc := 0x3FFF) (answers := [0xF0])
       let u := { s with pc := 0x4000, events := [.vidRead 7], vidAnswers := [], vidReads := 1 }
       s.Ready ∧ fetch8 s = .ok (0xF0, u) ∧ ReadFaults u u.pc (.unimplementedRegion 0x4000)) :=
  ⟨by decide +kernel, by decide +kernel, by decide +kernel, .inr (.inl ⟨by decide +kernel, by decide +kernel, by decide +kernel, rfl⟩)⟩

theorem witness_TxsCldSeiEffects :
    (start [0x9A]).Ready ∧ fetch8 (start [0x9A]) = .ok (0x9A, { start [0x9A] with pc := 0x8001 }) ∧
      fetch8 (start [0xD8]) = .ok (0xD8, { start [0xD8] with pc := 0x8001 }) ∧
      fetch8 (start [0x78]) = .ok (0x78, { start [0x78] with pc := 0x8001 }) ∧ (start [0x78]).Inv :=
  ⟨⟨rfl, rfl⟩, by decide +kernel, by decide +kernel, by decide +kernel, start_inv [0x78] 0 0 0 0x8000 [] (by decide +kernel) (by decide +kernel)⟩

theorem witness_DataReadFaults :
    loadAddress (.ldaAbs 0x4014) (start []) = some 0x4014 ∧ ReadFaults (start []) 0x4014 (.unmappedAddress 0x4014) ∧
      loadAddress (.cmpAbs 0x401F) (start []) = some 0x401F ∧ ReadFaults (start []) 0x401F (.unimplementedRegion 0x401F) ∧
      loadAddress (.andAbs 0x7FFF) (start []) = some 0x7FFF ∧ ReadFaults (start []) 0x7FFF (.unmappedAddress 0x7FFF) :=
  ⟨rfl, .inl ⟨by decide, rfl⟩, rfl, .inr (.inl ⟨by decide, by decide, by decide, rfl⟩), rfl,
    .inr (.inr (.inl ⟨by decide, by decide, rfl⟩))⟩

theorem witness_DataWriteFaults :
    storeAddress (.staAbs 0x4000) (start []) = some 0x4000 ∧ WriteFaults 0x4000 (.unimplementedRegion 0x4000) ∧
      storeAddress (.stxAbs 0x4020) (start []) = some 0x4020 ∧ WriteFaults 0x4020 (.readOnlyViolation 0x4020) ∧
      storeAddress (.styAbs 0xFFFF) (start []) = some 0xFFFF ∧ WriteFaults 0xFFFF (.readOnlyViolation 0xFFFF) :=
  ⟨rfl, .inl ⟨by decide, by decide, by decide, rfl⟩, rfl, .inr ⟨by decide, rfl⟩, rfl, .inr ⟨by decide, rfl⟩⟩

theorem witness_RegistersChangeOnlyAsNamed :
    exec (.cmpImm 3) (start [] (a := 5)) = .next { start [] (a := 5) with p := Status.ofByte 0x35 } ∧
      Instr.op (.cmpImm 3) ≠ .lda ∧ Instr.op (.cmpImm 3) ≠ .and ∧ Instr.op (.cmpImm 3) ≠ .ldx ∧ Instr.op (.cmpImm 3) ≠ .ldy ∧
      Instr.op (.cmpImm 3) ≠ .txs ∧ Instr.op (.cmpImm 3) ≠ .beq :=
  ⟨next_of (by decide), by decide⟩

theorem witness_FlagsChangeOnlyAsNamed :
    exec .txs (start [] (x := 5)) = .next { start [] (x := 5) with sp := 5 } ∧ Op.txs ∈ [Op.sta, Op.stx, Op.sty, Op.beq, Op.txs] ∧
      exec .cld (start [] (p := 0x3C)) = .next (start []) ∧ Instr.cld.op = .cld ∧
      exec .sei (start [] (p := 0x30)) = .next (start []) ∧ Instr.sei.op = .sei ∧
      exec (.ldxImm 0x80) (start []) = .next { start [] with x := 0x80, p := Status.ofByte 0xB4 } ∧ Instr.op (.ldxImm 0x80) = .ldx ∧
      exec (.ldyImm 0x80) (start []) = .next { start [] with y := 0x80, p := Status.ofByte 0xB4 } ∧ Instr.op (.ldyImm 0x80) = .ldy ∧
      exec (.andImm 0xF0) (start [] (a := 0x0F)) = .next { start [] with p := Status.ofByte 0x36 } ∧
      Instr.op (.andImm 0xF0) ∈ [Op.lda, Op.and] ∧
      exec (.cmpImm 5) (start [] (a := 5)) = .next { start [] (a := 5) with p := Status.ofByte 0x37 } ∧
      exec (.cmpAbs 0x8000) (start [6] (a := 5)) = .next { start [6] (a := 5) with p := Status.ofByte 0xB4 } ∧
      Instr.op (.cmpAbs 0x8000) = .cmp ∧ loadAddress (.cmpAbs 0x8000) (start [6] (a := 5)) = some 0x8000 ∧
      Reads (start [6] (a := 5)) 0x8000 6 (start [6] (a := 5)) :=
  ⟨next_of (by decide), by decide, next_of (by decide), rfl, next_of (by decide), rfl, next_of (by decide), rfl, next_of (by decide),
    rfl, next_of (by decide), by decide, next_of (by decide), next_of (by decide), rfl, rfl,
    .inr (.inr ⟨by decide, by decide, by decide, rfl⟩)⟩

theorem witness_OverflowBreakAlwaysOneNeverChange :
    step (start [0xC9, 5] (a := 5)) = .next { start [0xC9, 5] (a := 5) with p := Status.ofByte 0x37, pc := 0x8002 } ∧
      (start [0xC9, 5]).p.i = true ∧ (start [0xC9, 5]).p.d = false :=
  ⟨next_of (by decide), by decide, by decide⟩

theorem witness_NonStoringInstructionsLeaveMemory :
    storeAddress (.ldxImm 5) (start []) = none ∧ exec (.ldxImm 5) (start []) = .next { start [] with x := 5 } :=
  ⟨rfl, next_of (by decide)⟩

/-- A store to RAM with an alias of its cell and another cell; a store to the device window. -/
theorem witness_StoresWriteOnlyTheAddressedCell :
    (start [] (a := 5)).ram.wf = true ∧ storeAddress (.staAbs 0x1FFF) (start [] (a := 5)) = some 0x1FFF ∧
      exec (.staAbs 0x1FFF) (start [] (a := 5)) = .next { start [] (a := 5) with ram := [(2047, 5)] } ∧
      SameRamCell 0x07FF 0x1FFF ∧ ¬ SameRamCell 0x2000 0x1FFF ∧ ¬ SameRamCell 0x0000 0x1FFF ∧
      storeAddress (.staAbs 0x2000) (start [] (a := 5)) = some 0x2000 ∧
      exec (.staAbs 0x2000) (start [] (a := 5)) = .next { start [] (a := 5) with events := [.vidWrite 0 5] } ∧
      0x2000 ≤ (0x2000 : Word).toNat :=
  ⟨rfl, rfl, next_of (by decide), by unfold SameRamCell; decide, by unfold SameRamCell; decide,
    by unfold SameRamCell; decide, rfl, next_of (by decide), by decide⟩

theorem witness_StoredCodeIsFetched :
    (start [] (x := 0x78)).ram.wf = true ∧ storeAddress (.stxAbs 0x0010) (start [] (x := 0x78)) = some 0x0010 ∧
      exec (.stxAbs 0x0010) (start [] (x := 0x78)) = .next { start [] (x := 0x78) with ram := [(16, 0x78)] } ∧
      SameRamCell 0x1810 0x0010 := ⟨rfl, rfl, next_of (by decide), by unfold SameRamCell; decide⟩

theorem witness_EventsAreRecordedInOrder :
    step (start [0x8D, 0x00, 0x20] (a := 5)) =
      .next { start [0x8D, 0x00, 0x20] (a := 5) with pc := 0x8003, events := [.vidWrite 0 5] } :=
  next_of (by decide)

/-- One step for each shape: the data access faults, the fetch faults, the opcode is no instruction. -/
theorem witness_CallsBeforeAFaultAreRecorded :
    (∃ t, stepCall (start [] (pc := 0x2000) (answers := [0xAD, 0x15, 0x40])) = .faulted (.unimplementedRegion 0x4015) t) ∧
      (∃ t, stepCall (start [] (pc := 0x3FFF) (answers := [0xA9])) = .faulted (.unimplementedRegion 0x4000) t) ∧
      ∃ t, stepCall (start [] (pc := 0x3FFF) (answers := [3])) = .faulted (.illegalOpcode 3 0x3FFF) t :=
  ⟨⟨_, stepCall_of_fault (fault_of (by decide))⟩, ⟨_, stepCall_of_fault (fault_of (by decide))⟩,
    _, stepCall_of_fault (fault_of (by decide))⟩

/-- Two records of the collaborator that differ in every field; data addresses at both sides of the device window. -/
theorem witness_CollaboratorCannotReachTheCore :
    SameCore (start [7]) { start [7] with events := [.vidRead 1], vidAnswers := [9], vidReads := 4 } ∧
      loadAddress (.ldaAbs 0x1FFF) (start [7]) = some 0x1FFF ∧ (0x1FFF : Word).toNat < 0x2000 ∧
      loadAddress (.ldaAbs 0x4000) (start [7]) = some 0x4000 ∧ 0x3FFF < (0x4000 : Word).toNat ∧
      loadAddress (.staAbs 0x2000) (start [7]) = none :=
  ⟨⟨rfl, rfl, rfl, rfl, rfl, rfl, rfl, rfl, rfl, rfl, rfl, rfl⟩, rfl, by decide, rfl, by decide, rfl⟩

theorem witness_FetchWrapsAtTheTop : (start [7] (pc := 0xFFFF)).Inv ∧ (start [7] (pc := 0xFFFF)).pc = 0xFFFF :=
  ⟨start_inv [7] 0 0 0 0xFFFF [] (by decide) (by decide), rfl⟩

end Sys2Proof.Tests
end

section
/-! PROOFS. The faults a step can end in under the invariant (60_exceptions.md R231, R237, R238). The one fault a bus access
could add to the five is the bounds check of program storage; it needs an offset outside the storage, and the slots of
mapper 0 name none. A fetch keeps slots and cartridge, so the data access after it has the same bound. -/

namespace Sys2Proof.Machine

/-- The faults a run can end in: all of 60_exceptions.md R231 but `BankOutOfRange` and `InternalBoundsError`. -/
def Fault.Reachable : Fault → Prop
  | .illegalOpcode _ _ | .unimplementedInstruction _ _ _ _ | .unmappedAddress _ | .readOnlyViolation _
  | .unimplementedRegion _ => True
  | .bankOutOfRange _ _ | .internalBoundsError _ => False

theorem Fault.Reachable.cases {f : Fault} (h : f.Reachable) :
    (∃ b a, f = .illegalOpcode b a) ∨ (∃ op mode b a, f = .unimplementedInstruction op mode b a) ∨
      (∃ a, f = .unmappedAddress a) ∨ (∃ a, f = .readOnlyViolation a) ∨ ∃ a, f = .unimplementedRegion a := by
  cases f with
  | illegalOpcode b a => exact .inl ⟨b, a, rfl⟩
  | unimplementedInstruction op mode b a => exact .inr (.inl ⟨op, mode, b, a, rfl⟩)
  | unmappedAddress a => exact .inr (.inr (.inl ⟨a, rfl⟩))
  | readOnlyViolation a => exact .inr (.inr (.inr (.inl ⟨a, rfl⟩)))
  | unimplementedRegion a => exact .inr (.inr (.inr (.inr ⟨a, rfl⟩)))
  | bankOutOfRange a v => exact h.elim
  | internalBoundsError offset => exact h.elim

/-- Every bus address that shows program storage shows a byte inside it (20_memory.md R67). -/
def State.ProgramInRange (s : State) : Prop := ∀ addr, programOffset s addr < s.cart.prgCount * 16384

theorem Fetched.programInRange {n : Nat} {s t : State} (h : Fetched n s t) (hs : s.ProgramInRange) : t.ProgramInRange := by
  unfold Fetched at h
  rw [h]
  exact hs

theorem ReadFaults.reachable {s : State} {ea : Word} {f : Fault} (h : ReadFaults s ea f) (hs : s.ProgramInRange) :
    f.Reachable := by
  rcases h with ⟨_, rfl⟩ | ⟨_, _, _, rfl⟩ | ⟨_, _, rfl⟩ | ⟨_, hout, _⟩
  · trivial
  · trivial
  · trivial
  · exact absurd (hs ea) (Nat.not_lt.2 hout)

theorem WriteFaults.reachable {ea : Word} {f : Fault} (h : WriteFaults ea f) : f.Reachable := by
  rcases h with ⟨_, _, _, rfl⟩ | ⟨_, rfl⟩ <;> trivial

theorem fetchInstr_error_reachable {s r : State} {f : Fault} (h : fetchInstr s = .error (f, r)) (hs : s.ProgramInRange) :
    f.Reachable := by
  rcases fetchInstr_error h with ⟨n, bytes, hbytes, hread⟩ | ⟨b, _, rfl⟩ | ⟨op, mode, b, _, rfl⟩
  · exact hread.reachable ((fetchBytes_fetched hbytes).programInRange hs)
  · trivial
  · trivial

theorem exec_fault_reachable {i : Instr} {s : State} {f : Fault} (h : exec i s = .fault f) (hs : s.ProgramInRange) :
    f.Reachable := by
  rcases exec_fault h with ⟨ea, _, hread⟩ | ⟨ea, _, hwrite⟩
  · exact hread.reachable hs
  · exact hwrite.reachable

theorem step_fault_reachable {s : State} {f : Fault} (h : step s = .fault f) (hs : s.ProgramInRange) : f.Reachable := by
  obtain ⟨_, ⟨r, hfetch⟩ | ⟨i, u, hfetch, hexec⟩⟩ := step_fault h
  · exact fetchInstr_error_reachable hfetch hs
  · exact exec_fault_reachable hexec ((fetchInstr_fetched hfetch).programInRange hs)

/-- Every instruction of 30_encoding.md R108 has a meaning: it loads, stores, or changes registers only. -/
theorem exec_not_refused (i : Instr) (s : State) (r : Refusal) : exec i s ≠ .refused r := by
  cases hl : loadAddress i s with
  | some ea => rw [exec_load hl]; exact readThen_not_refused
  | none =>
    cases hs : storeAddress i s with
    | some ea => rw [exec_store hs]; exact storeAt_not_refused
    | none =>
      obtain ⟨a, x, y, sp, p, pc, hnext⟩ := exec_registers hl hs
      simp [hnext]

theorem step_not_refused {s : State} (hs : s.Ready) (r : Refusal) : step s ≠ .refused r := by
  cases hfetch : fetchInstr s with
  | error e => rw [step_of_fetchFault hs hfetch]; simp
  | ok fetched => rw [step_of_fetch hs hfetch]; exact exec_not_refused _ _ r

/-- Settles O31: a refusal needs a failed precondition of `step()`, and a sixth fault an offset outside program storage; the
invariant excludes both. -/
theorem stepFaultsAreTheFiveReachableOnes : Obligations.StepFaultsAreTheFiveReachableOnes := by
  intro s hinv
  cases hstep : step s with
  | next t => exact .inl ⟨t, rfl⟩
  | fault f => exact .inr ⟨f, rfl, (step_fault_reachable hstep hinv.programOffset_lt).cases⟩
  | refused r => exact absurd hstep (step_not_refused hinv.ready r)

end Sys2Proof.Machine
end

section
/-! PROOFS. What a step does to the state of 10_state.md. Said once: what an operation that completes changes, whatever its
addressing mode (`OpEffect`, `exec_opEffect`). The frame of the registers, of the flags and of RAM is read off it, operation by
operation; a fetch adds `PC` and the record alone (`Fetched`), so the statements about a whole step follow. -/

namespace Sys2Proof.Machine

/-! ### What an operation changes -/

/-- What a data read leaves of the state `s`: all of it, or all of it with one device read recorded (20_memory.md R63). -/
def AfterRead (s u : State) : Prop := u = s ∨ ∃ slot, u = s.afterVidRead slot

theorem AfterRead.keeps {s u : State} (h : AfterRead s u) :
    u.a = s.a ∧ u.x = s.x ∧ u.y = s.y ∧ u.sp = s.sp ∧ u.p = s.p ∧ u.pc = s.pc ∧ u.ram = s.ram := by
  rcases h with rfl | ⟨slot, rfl⟩ <;> exact ⟨rfl, rfl, rfl, rfl, rfl, rfl, rfl⟩

/-- What a store leaves of the state `s`: one RAM cell is written, or one event is handed over (20_memory.md R63). -/
def AfterWrite (s t : State) : Prop := (∃ k v, k < Config.ramSize ∧ t = withRam s k v) ∨ ∃ e, t = s.emit e

/-- What an operation that completes does to the state, in any of its modes: the effects of 40_load.md to 44_transfer_flag.md
after the data read, if any. -/
def OpEffect (op : Op) (s t : State) : Prop :=
  match op with
  | .lda | .ldx | .ldy | .and | .cmp => ∃ m u, AfterRead s u ∧ t = readEffect op m u
  | .sta | .stx | .sty => AfterWrite s t
  | .beq => ∃ target, t = s.setPc target
  | .txs => t = s.setSp s.x
  | .cld => t = s.setP { s.p with d := false }
  | .sei => t = s.setP { s.p with i := true }

/-- Only LDA, LDX, LDY, AND and CMP read a data byte (40_load.md, 42_logic_compare.md). -/
theorem loadAddress_op {i : Instr} {s : State} {ea : Word} (h : loadAddress i s = some ea) :
    i.op ∈ [Op.lda, Op.ldx, Op.ldy, Op.and, Op.cmp] := by
  cases i <;> simp only [loadAddress, reduceCtorEq] at h <;> simp [Instr.op]

theorem OpEffect.of_read {op : Op} {s u : State} {m : Byte} (hop : op ∈ [Op.lda, Op.ldx, Op.ldy, Op.and, Op.cmp])
    (hu : AfterRead s u) : OpEffect op s (readEffect op m u) := by
  cases op with
  | lda | ldx | ldy | and | cmp => exact ⟨m, u, hu, rfl⟩
  | sta | stx | sty | beq | txs | cld | sei => simp at hop

theorem OpEffect.of_write {op : Op} {s t : State} {ea : Word} {v : Byte} (hop : op ∈ [Op.sta, Op.stx, Op.sty])
    (hw : Writes s ea v t) : OpEffect op s t := by
  have ht : AfterWrite s t := by
    rcases writes_state hw with ⟨rfl, _⟩ | ⟨e, rfl⟩
    · exact .inl ⟨_, _, Nat.mod_lt _ (by decide), rfl⟩
    · exact .inr ⟨e, rfl⟩
  cases op with
  | sta | stx | sty => exact ht
  | lda | ldx | ldy | and | cmp | beq | txs | cld | sei => simp at hop

/-- `BEQ` writes `PC` at most: the branch target, or what `PC` was (43_branch.md R210). -/
theorem execBeq_next {off : Byte} {s t : State} (h : execBeq off s = .next t) : ∃ target, t = s.setPc target := by
  unfold execBeq at h
  split at h
  · cases h; exact ⟨_, rfl⟩
  · cases h; exact ⟨s.pc, rfl⟩

/-- An execution that completes has the effect of its operation: of the byte read, of the byte stored, or on registers alone. -/
theorem exec_opEffect {i : Instr} {s t : State} (h : exec i s = .next t) : OpEffect i.op s t := by
  rcases exec_next h with ⟨ea, v, u, hload, hread, rfl⟩ | ⟨ea, hstore, hwrite⟩ | ⟨hload, hstore, -⟩
  · exact .of_read (loadAddress_op hload) (reads_state hread)
  · exact .of_write (storeAddress_op hstore) hwrite
  · cases i <;> simp only [loadAddress, storeAddress, reduceCtorEq] at hload hstore
    case ldaImm nn | ldxImm nn | ldyImm nn | andImm nn | cmpImm nn => cases h; exact ⟨nn, s, .inl rfl, rfl⟩
    case beq off => exact execBeq_next h
    case txs | cld | sei => cases h; rfl

/-! ### The frame of the registers -/

/-- An operation writes no register but its destination (10_state.md R21 to R26). -/
theorem OpEffect.registers {op : Op} {s t : State} (h : OpEffect op s t) :
    (op ≠ .lda → op ≠ .and → t.a = s.a) ∧ (op ≠ .ldx → t.x = s.x) ∧ (op ≠ .ldy → t.y = s.y) ∧
      (op ≠ .txs → t.sp = s.sp) ∧ (op ≠ .beq → t.pc = s.pc) := by
  cases op with
  | lda | ldx | ldy | and | cmp =>
    obtain ⟨m, u, hu, rfl⟩ := h
    simp [readEffect, hu.keeps]
  | sta | stx | sty => rcases h with ⟨k, v, _, rfl⟩ | ⟨e, rfl⟩ <;> simp [withRam]
  | beq => obtain ⟨target, rfl⟩ := h; simp
  | txs | cld | sei => cases h; simp

/-- Settles O46: the operation's effect bounds the registers, and no instruction touches the rest (`exec_keeps`). -/
theorem registersChangeOnlyAsNamed : Obligations.RegistersChangeOnlyAsNamed := by
  intro i s t h
  obtain ⟨ha, hx, hy, hsp, hpc⟩ := (exec_opEffect h).registers
  exact ⟨ha, hx, hy, hsp, hpc, exec_keeps h⟩

/-! ### The frame of the flags -/

/-- The flags after a load or AND: N and Z follow the destination register (10_state.md R28, R34, R36). -/
theorem OpEffect.flags_of_result {op : Op} {s t : State} (h : OpEffect op s t) :
    (op ∈ [Op.lda, Op.and] → t.p = withNZ t.a s.p) ∧ (op = .ldx → t.p = withNZ t.x s.p) ∧
      (op = .ldy → t.p = withNZ t.y s.p) := by
  cases op with
  | lda | ldx | ldy | and =>
    obtain ⟨m, u, hu, rfl⟩ := h
    simp [readEffect, withNZ_eq, hu.keeps]
  | cmp | sta | stx | sty | beq | txs | cld | sei => simp

/-- The flags after CLD and SEI (44_transfer_flag.md R221, R222). -/
theorem OpEffect.flags_of_flagWrite {op : Op} {s t : State} (h : OpEffect op s t) :
    (op = .cld → t.p = { s.p with d := false }) ∧ (op = .sei → t.p = { s.p with i := true }) :=
  ⟨fun hop => by subst hop; cases h; rfl, fun hop => by subst hop; cases h; rfl⟩

/-- STA, STX, STY, BEQ and TXS write no flag (10_state.md R36). -/
theorem OpEffect.flags_unwritten {op : Op} {s t : State} (h : OpEffect op s t)
    (hop : op ∈ [Op.sta, Op.stx, Op.sty, Op.beq, Op.txs]) : t.p = s.p := by
  cases op with
  | sta | stx | sty => rcases h with ⟨k, v, _, rfl⟩ | ⟨e, rfl⟩ <;> rfl
  | beq => obtain ⟨target, rfl⟩ := h; rfl
  | txs => cases h; rfl
  | lda | ldx | ldy | and | cmp | cld | sei => simp at hop

/-- Which operations a flag can change by (10_state.md R28 to R36). -/
theorem OpEffect.flags_frame {op : Op} {s t : State} (h : OpEffect op s t) :
    (op ∉ [Op.lda, Op.ldx, Op.ldy, Op.and, Op.cmp] → t.p.n = s.p.n ∧ t.p.z = s.p.z) ∧
      (op ≠ .cmp → t.p.c = s.p.c) ∧ (op ≠ .cld → t.p.d = s.p.d) ∧ (op ≠ .sei → t.p.i = s.p.i) ∧
      t.p.v = s.p.v ∧ t.p.u = s.p.u ∧ t.p.b = s.p.b := by
  cases op with
  | lda | ldx | ldy | and | cmp =>
    obtain ⟨m, u, hu, rfl⟩ := h
    simp [readEffect, hu.keeps]
  | sta | stx | sty | beq | txs => simp [h.flags_unwritten]
  | cld | sei => cases h; simp

/-- CMP with its operand at an address compares `A` with the byte read there (42_logic_compare.md R200). -/
theorem exec_cmp_flags {i : Instr} {s t u : State} {ea : Word} {m : Byte} (h : exec i s = .next t) (hop : i.op = .cmp)
    (hload : loadAddress i s = some ea) (hread : Reads s ea m u) : t.p = withCompare s.a m s.p := by
  rw [exec_load hload, readThen_of_reads hread, hop] at h
  cases h
  obtain ⟨hp, ha⟩ := reads_keeps hread
  rw [withCompare_eq, ← hp, ← ha]; rfl

/-- CMP with an immediate operand compares `A` with it (42_logic_compare.md R201). -/
theorem exec_cmpImm_flags {nn : Byte} {s t : State} (h : exec (.cmpImm nn) s = .next t) : t.p = withCompare s.a nn s.p := by
  cases h
  rw [withCompare_eq]; rfl

/-- Settles O47, from the effect of each operation on `P`; the operand of a CMP is its immediate byte or the byte read. -/
theorem flagsChangeOnlyAsNamed : Obligations.FlagsChangeOnlyAsNamed := by
  intro i s t h
  have heff := exec_opEffect h
  obtain ⟨hacc, hldx, hldy⟩ := heff.flags_of_result
  obtain ⟨hcld, hsei⟩ := heff.flags_of_flagWrite
  obtain ⟨hnz, hc, hd, hi, hv, hu, hb⟩ := heff.flags_frame
  exact ⟨hacc, hldx, hldy, fun nn hcmp => exec_cmpImm_flags (hcmp ▸ h),
    fun ea m u hop hload hread => exec_cmp_flags h hop hload hread, hcld, hsei, hnz, hc, hd, hi, hv, hu, hb,
    heff.flags_unwritten⟩

/-! ### The frame of memory -/

/-- Only a store changes RAM, one cell below its size (10_state.md R37). -/
theorem OpEffect.ram {op : Op} {s t : State} (h : OpEffect op s t) :
    t.ram = s.ram ∨ (op ∈ [Op.sta, Op.stx, Op.sty] ∧ ∃ k v, k < Config.ramSize ∧ t.ram = Memory.write s.ram k v) := by
  cases op with
  | lda | ldx | ldy | and | cmp =>
    obtain ⟨m, u, hu, rfl⟩ := h
    simp [readEffect, hu.keeps]
  | sta | stx | sty =>
    rcases h with ⟨k, v, hk, rfl⟩ | ⟨e, rfl⟩
    · exact .inr ⟨by decide, k, v, hk, rfl⟩
    · exact .inl rfl
  | beq => obtain ⟨target, rfl⟩ := h; exact .inl rfl
  | txs | cld | sei => cases h; exact .inl rfl

/-- Every STA, STX and STY has a store address (41_store.md). -/
theorem op_of_storeAddress_none {i : Instr} {s : State} (h : storeAddress i s = none) : i.op ∉ [Op.sta, Op.stx, Op.sty] := by
  cases i <;> simp only [storeAddress, reduceCtorEq] at h <;> simp [Instr.op]

/-- Settles O49: RAM is left by an operation that is no store, and a byte of memory is one of RAM, the cartridge and the slots. -/
theorem nonStoringInstructionsLeaveMemory : Obligations.NonStoringInstructionsLeaveMemory := by
  intro i s t hstore h
  have hram : t.ram = s.ram := by
    rcases (exec_opEffect h).ram with hram | ⟨hop, -⟩
    · exact hram
    · exact absurd hop (op_of_storeAddress_none hstore)
  obtain ⟨hcart, hbanks, -⟩ := exec_keeps h
  exact ⟨hram, peek_congr hram hcart hbanks⟩

/-! ### A whole step -/

/-- Settles O8: the fetch advances `PC` by the length, and the execution leaves it unless it is a taken branch. -/
theorem stepAdvancesPcPastTheInstruction : Obligations.StepAdvancesPcPastTheInstruction := by
  intro s u t i hfetch hstep hbranch
  obtain ⟨hready, -⟩ := step_next hstep
  rw [step_of_fetch hready hfetch] at hstep
  have hfetched := fetchInstr_fetched hfetch
  obtain ⟨-, -, -, -, hp, -⟩ := hfetched.keeps
  rw [exec_pc hstep (hp ▸ hbranch), hfetched.pc]

/-- Settles O32: neither the fetch nor the execution touches these fields, and a step needs an empty latch. -/
theorem stepNeverChangesCartridgeSlotsOrLatch : Obligations.StepNeverChangesCartridgeSlotsOrLatch := by
  intro s t h
  obtain ⟨⟨hlatch, -⟩, i, u, hfetch, hexec⟩ := step_next h
  obtain ⟨-, -, -, -, -, -, hbanks, hchr, hcart, hfault, -⟩ := (fetchInstr_fetched hfetch).keeps
  obtain ⟨hcart', hbanks', hchr', hfault', -⟩ := exec_keeps hexec
  exact ⟨hcart'.trans hcart, hbanks'.trans hbanks, hchr'.trans hchr, hfault'.trans (hfault.trans hlatch)⟩

/-- Settles O48: a fetch keeps `P`; of the instruction's own flag rules, only that of CMP names C. -/
theorem overflowBreakAlwaysOneNeverChange : Obligations.OverflowBreakAlwaysOneNeverChange := by
  intro s t h
  obtain ⟨-, i, u, hfetch, hexec⟩ := step_next h
  obtain ⟨-, -, -, -, hp, -⟩ := (fetchInstr_fetched hfetch).keeps
  obtain ⟨hu, hv, hb, hi, hd⟩ := exec_flags hexec
  obtain ⟨-, hc, -⟩ := (exec_opEffect hexec).flags_frame
  rw [hp] at hu hv hb hi hd hc
  refine ⟨hv, hu, hb, hi, hd, ?_⟩
  by_cases hop : i.op = .cmp
  · exact .inr ⟨i, u, hfetch, hop⟩
  · exact .inl (hc hop)

/-! ### The invariant of a run -/

/-- A fetch keeps the invariant: it says nothing of `PC` and of the record. -/
theorem Fetched.keeps_inv {n : Nat} {s t : State} (h : Fetched n s t) (hs : s.Inv) : t.Inv := by
  unfold Fetched at h
  rw [h]
  exact { hs with }

/-- An execution keeps RAM canonical and within its 2048 cells (10_state.md R37). -/
theorem exec_keeps_ram {i : Instr} {s t : State} (h : exec i s = .next t) (hwf : s.ram.wf = true)
    (hwithin : s.ram.within Config.ramSize = true) : t.ram.wf = true ∧ t.ram.within Config.ramSize = true := by
  rcases (exec_opEffect h).ram with hram | ⟨-, k, v, hk, hram⟩ <;> rw [hram]
  · exact ⟨hwf, hwithin⟩
  · exact ⟨Memory.write_wf k v hwf, Memory.write_within v hk hwithin⟩

/-- An execution keeps the invariant: RAM by the write's own laws, the configuration by `exec_keeps`, U and I by
`exec_flags`. -/
theorem exec_keeps_inv {i : Instr} {s t : State} (h : exec i s = .next t) (hs : s.Inv) : t.Inv := by
  obtain ⟨hwf, hwithin⟩ := exec_keeps_ram h hs.ramWf hs.ramWithin
  obtain ⟨hcart, hbanks, hchr, hfault, hdone⟩ := exec_keeps h
  obtain ⟨hu, -, -, hi, -⟩ := exec_flags h
  exact {
    ramWf := hwf
    ramWithin := hwithin
    chrRamOk := by rw [hchr]; exact hs.chrRamOk
    chrRamPresent := by rw [hchr, hcart]; exact hs.chrRamPresent
    cartOk := by rw [hcart]; exact hs.cartOk
    banksFixed := by rw [hbanks, hcart]; exact hs.banksFixed
    alwaysOne := hu.trans hs.alwaysOne
    interruptDisable := hi hs.interruptDisable
    notFaulted := hfault.trans hs.notFaulted
    launched := hdone.trans hs.launched }

/-- Settles O30: a completing step is a fetch, then an execution, and each keeps the invariant. -/
theorem stepKeepsInvariant : Obligations.StepKeepsInvariant := by
  intro s t hs h
  obtain ⟨-, i, u, hfetch, hexec⟩ := step_next h
  exact exec_keeps_inv hexec ((fetchInstr_fetched hfetch).keeps_inv hs)

/-- The state after reset meets the invariant. -/
theorem reset_inv : State.reset.Inv where
  ramWf := rfl
  ramWithin := rfl
  chrRamOk := by intro m hm; cases hm; exact ⟨rfl, rfl⟩
  chrRamPresent := rfl
  cartOk := by decide
  banksFixed := rfl
  alwaysOne := by decide
  interruptDisable := by decide
  notFaulted := rfl
  launched := rfl

/-- Settles O29: the power-on summary of 10_state.md R44, with `reset_inv` and the vector word of `resetCall_reset`. -/
theorem resetStateHasTheSpecifiedValues : Obligations.ResetStateHasTheSpecifiedValues :=
  ⟨reset_inv, rfl, by decide, rfl, rfl, resetCall_reset⟩

/-! ### `P` as a byte, and `PC` at the top -/

theorem Status.toNat_toByte (p : Status) : p.toByte.toNat = 128 * p.n.toNat + 64 * p.v.toNat + 32 * p.u.toNat +
    16 * p.b.toNat + 8 * p.d.toNat + 4 * p.i.toNat + 2 * p.z.toNat + p.c.toNat := by
  simp only [Status.toByte, ← BitVec.concat.eq_def, BitVec.toNat_concat, BitVec.toNat_ofBool]
  omega

theorem Status.ofByte_toByte (p : Status) : Status.ofByte p.toByte = p := by
  simp only [Status.ofByte, Status.toByte, BitVec.getLsbD_append, BitVec.getLsbD_ofBool]
  simp

/-- Settles O54: the byte is built flag by flag from bit 7 down, and each bit is read back by its position. -/
theorem statusByteHasTheFlagsInOrder : Obligations.StatusByteHasTheFlagsInOrder :=
  fun p => ⟨p.toNat_toByte, p.ofByte_toByte⟩

/-- Under the invariant the last address shows the last byte of the last program bank (20_memory.md R67, R69). -/
theorem State.Inv.reads_top {s : State} (h : s.Inv) :
    Reads s 0xFFFF (Memory.read s.cart.prg ((s.cart.prgCount - 1) * 16384 + 0x3FFF)) s := by
  have hoff : programOffset s 0xFFFF = (s.cart.prgCount - 1) * 16384 + 0x3FFF := by
    unfold programOffset; rw [h.banksFixed]; rfl
  exact .inr (.inr ⟨by decide, h.programOffset_lt _, by rw [hoff], rfl⟩)

/-- Settles O55: the fetch at 0xFFFF reads the last program byte, and 0xFFFF plus one is 0x0000 in 16 bits. -/
theorem fetchWrapsAtTheTop : Obligations.FetchWrapsAtTheTop := by
  intro s hs hpc
  have hread := hs.reads_top
  rw [← hpc] at hread
  rw [fetch8_of_reads hread, hpc]; rfl

end Sys2Proof.Machine
end

section
/-! PROOFS. The Memory Bus, the Bank-Switch Unit and the Cartridge Image (20_memory.md). What a write leaves to be seen is said
once, by `peek` (`Writes.peek_same`, `Writes.peek_other`), for the mirrors, the stores and the fetch after a store. The core
reads the record of the collaborator in a device read alone, so two states that differ in the record alone
(`State.withRecord`) run alike. -/

namespace Sys2Proof.Machine

/-! ### The routing table and the device registers -/

/-- A slot number is the address modulo 8 (20_memory.md R53). -/
theorem ofNat_mod_eight (n : Nat) : BitVec.ofNat 3 (n % 8) = BitVec.ofNat 3 n := by
  apply BitVec.eq_of_toNat_eq; simp

/-- Settles O14: the rows of the table, one by one, with the slot as the address modulo 8. -/
theorem routingTable : Obligations.RoutingTable := by
  intro addr
  rw [ofNat_mod_eight]
  exact ⟨route_ram, route_vid, route_oamDma, route_audioIo, route_testMode, route_cart⟩

theorem sameCore_afterVidRead (s : State) (slot : BitVec 3) : SameCore s (s.afterVidRead slot) := by
  simp [SameCore]

theorem sameCore_emit (s : State) (e : Event) : SameCore s (s.emit e) := by
  simp [SameCore]

/-- Settles O19: in the device window a read leaves `State.afterVidRead` and a write `State.emit`, which keep the core. -/
theorem deviceWindowAccesses : Obligations.DeviceWindowAccesses := by
  intro s a v hlo hhi
  rw [ofNat_mod_eight]
  exact ⟨⟨_, busRead_of_reads (.inr (.inl ⟨hlo, hhi, rfl, rfl⟩)), sameCore_afterVidRead s _, rfl⟩,
    ⟨_, busWrite_of_writes (.inr (.inl ⟨hlo, hhi, rfl⟩)), sameCore_emit s _, rfl⟩⟩

/-- Settles O20: 0x4014 is the last clause of `Writes` and the first of `ReadFaults`. -/
theorem oamDmaTriggerIsAnEvent : Obligations.OamDmaTriggerIsAnEvent :=
  fun _ _ => ⟨busWrite_of_writes (.inr (.inr ⟨rfl, rfl⟩)), busRead_of_readFaults (.inl ⟨rfl, rfl⟩)⟩

/-! ### Word reads -/

theorem readWord_of_reads {s t u : State} {a : Word} {lo hi : Byte} (h1 : Reads s a lo t) (h2 : Reads t (a + 1) hi u) :
    readWord a s = .ok (wordOfBytes lo hi, u) := by
  simp only [readWord, busRead_of_reads h1, busRead_of_reads h2]

theorem readWord_of_firstFault {s : State} {a : Word} {f : Fault} (h : ReadFaults s a f) : readWord a s = .error (f, s) := by
  simp only [readWord, busRead_of_readFaults h]

theorem readWord_of_secondFault {s t : State} {a : Word} {lo : Byte} {f : Fault} (h1 : Reads s a lo t)
    (h2 : ReadFaults t (a + 1) f) : readWord a s = .error (f, t) := by
  simp only [readWord, busRead_of_reads h1, busRead_of_readFaults h2]

/-- Settles O21: the second address of a word read is the first plus one in 16 bits. -/
theorem wordReadIsTwoRoutedByteReads : Obligations.WordReadIsTwoRoutedByteReads := by
  intro s t u a lo hi f
  have hnext : BitVec.ofNat 16 (a.toNat + 1) = a + 1 := by
    apply BitVec.eq_of_toNat_eq; simp
  rw [hnext]
  exact ⟨readWord_of_reads, readWord_of_firstFault, readWord_of_secondFault⟩

/-! ### Bank translation -/

/-- Masking by the lowest `n` bits is the remainder by `2 ^ n`. -/
theorem toNat_and_lowMask (addr : Word) {n : Nat} (hn : n ≤ 16) :
    (addr &&& BitVec.ofNat 16 (2 ^ n - 1)).toNat = addr.toNat % 2 ^ n := by
  have hmask : 2 ^ n - 1 < 2 ^ 16 := by
    have := Nat.pow_le_pow_right (show 0 < 2 by decide) hn
    omega
  rw [BitVec.toNat_and, BitVec.toNat_ofNat, Nat.mod_eq_of_lt hmask, Nat.and_two_pow_sub_one_eq_mod]

/-- The offset of a program address, from the slots alone (20_memory.md R67). -/
theorem translateProgram_eq (slots : BankSlots) (addr : Word) :
    translateProgram slots addr = programOffset { State.reset with banks := slots } addr :=
  translateProgram_eq_programOffset { State.reset with banks := slots } addr

/-- Settles O22: each window's formula is a branch of `programOffset`, whose bound is `programOffset_lt`. -/
theorem programWindowTranslation : Obligations.ProgramWindowTranslation := by
  intro slots addr count
  rw [translateProgram_eq]
  refine ⟨fun _ hle => ?_, fun hge => ?_, fun hlo hhi => programOffset_lt hlo hhi addr⟩
  · rw [programOffset, if_pos hle]
  · rw [programOffset, if_neg (by omega)]

/-- Under the invariant a program address reads the byte at its offset (20_memory.md R57, R67). -/
theorem State.Inv.busRead_program {s : State} (h : s.Inv) {a : Word} (ha : 0x8000 ≤ a.toNat) :
    busRead a s = .ok (Memory.read s.cart.prg (programOffset s a), s) :=
  busRead_of_reads (.inr (.inr ⟨ha, h.programOffset_lt a, rfl, rfl⟩))

/-- The offset of a program address under mapper 0: bank 0 below 0xC000, the last bank from there on (20_memory.md R69). -/
theorem State.Inv.programOffset_eq {s : State} (h : s.Inv) (a : Word) :
    programOffset s a = if a.toNat ≤ 0xBFFF then a.toNat % 16384 else (s.cart.prgCount - 1) * 16384 + a.toNat % 16384 := by
  simp only [programOffset, h.banksFixed, BankSlots.initial, Nat.zero_mul, Nat.zero_add]

/-- Settles O23: the offset of each window under mapper 0, with one bank and with two. -/
theorem oneBankShowsInBothWindows : Obligations.OneBankShowsInBothWindows := by
  intro s a hs ha
  refine ⟨fun hcount hlow => ?_, fun hcount => ?_⟩
  · have hmirror : (BitVec.ofNat 16 (a.toNat + 0x4000)).toNat = a.toNat + 0x4000 := by
      rw [BitVec.toNat_ofNat, Nat.mod_eq_of_lt (by omega)]
    have hoff : programOffset s a = a.toNat - 0x8000 := by
      rw [hs.programOffset_eq, if_pos hlow]; omega
    have hoff' : programOffset s (BitVec.ofNat 16 (a.toNat + 0x4000)) = a.toNat - 0x8000 := by
      rw [hs.programOffset_eq, hmirror, if_neg (by omega), hcount]; omega
    rw [hs.busRead_program ha, hs.busRead_program (by omega), hoff, hoff']
    exact ⟨rfl, rfl⟩
  · have hoff : programOffset s a = a.toNat - 0x8000 := by
      rw [hs.programOffset_eq, hcount]
      have := a.isLt
      split <;> omega
    rw [hs.busRead_program ha, hoff]

theorem translateGraphics_eq (slots : BankSlots) (addr : Word) :
    translateGraphics slots addr = slots.chr * 8192 + addr.toNat % 8192 := by
  rw [translateGraphics, show (addr &&& 0x1FFF).toNat = addr.toNat % 2 ^ 13 from
    toNat_and_lowMask addr (n := 13) (by decide)]
  rfl

/-- Settles O24: mapper 0 shows graphics bank 0, which the storage has: `CHR_RAM` when there is no bank, else the first. -/
theorem graphicsTranslationStaysInStorage : Obligations.GraphicsTranslationStaysInStorage := by
  refine ⟨translateGraphics_eq, fun s addr hs => ?_⟩
  obtain ⟨-, -, -, hslot⟩ := hs.banks_lt
  have hoff : translateGraphics s.banks addr = addr.toNat % 8192 := by
    rw [translateGraphics_eq, hslot, Nat.zero_mul, Nat.zero_add]
  have hlt : addr.toNat % 8192 < 8192 := Nat.mod_lt _ (by decide)
  have hpresent := hs.chrRamPresent
  refine ⟨fun hcount => ?_, fun hcount => ?_⟩
  · rw [decide_eq_true hcount] at hpresent
    obtain ⟨m, hm⟩ := Option.isSome_iff_exists.1 hpresent
    refine ⟨m, hm, ?_⟩
    simp only [State.graphicsByte, hm, hoff]
    exact if_pos hlt
  · rw [decide_eq_false hcount, Option.isSome_eq_false_iff, Option.isNone_iff_eq_none] at hpresent
    have hin : addr.toNat % 8192 < s.cart.chrBytes := by
      simp only [Cartridge.chrBytes, Config.chrBankSize]; omega
    simp only [State.graphicsByte, hpresent, hoff, Cartridge.chrByte, if_pos hin]

theorem BankSlots.inRange_iff {slots : BankSlots} {prgCount chrCount : Nat} :
    slots.inRange prgCount chrCount = true ↔
      slots.prgLo < prgCount ∧ slots.prgHi < prgCount ∧ slots.chr < max chrCount 1 := by
  simp only [BankSlots.inRange, Bool.and_eq_true, decide_eq_true_eq, and_assoc]

/-- Settles O25: the two tests of a write to the window, the strategy's predicate and the range of the slots it answers. -/
theorem controlWriteSelectsOrRejects : Obligations.ControlWriteSelectsOrRejects := by
  intro m addr v s
  refine ⟨fun hcontrol hlo hhi hchr => ?_, fun hcontrol hout => ?_, fun hplain => ?_⟩
  · rw [cartWrite, if_pos hcontrol, controlWrite, if_pos (BankSlots.inRange_iff.2 ⟨hlo, hhi, hchr⟩)]
  · rw [cartWrite, if_pos hcontrol, controlWrite, if_neg (by rw [BankSlots.inRange_iff]; omega)]
  · rw [cartWrite, if_neg (by simp [hplain])]

/-! ### The loader -/

theorem Header.magicMatches_iff {h : Header} :
    h.magicMatches = true ↔ h.magic0 = 0x4E ∧ h.magic1 = 0x45 ∧ h.magic2 = 0x53 ∧ h.magic3 = 0x1A := by
  simp only [Header.magicMatches, Bool.and_eq_true, beq_iff_eq, and_assoc]

theorem supportedMappers_contains_iff {id : Byte} : supportedMappers.contains id = true ↔ id = 0 := by
  simp [supportedMappers]

theorem Cartridge.load_of_short {file : List Byte} (h : file.length < 16) : Cartridge.load file = .error .truncatedImage := by
  simp only [Cartridge.load, Cartridge.parse, Header.parse_short h]

section
variable {file body : List Byte} {h : Header} (hp : Header.parse file = some (h, body))
include hp

theorem Cartridge.load_of_badMagic (hm : ¬ h.magicMatches = true) : Cartridge.load file = .error .badMagic := by
  simp only [Cartridge.load, Cartridge.parse, hp, if_neg hm]

theorem Cartridge.load_of_shortBody (hm : h.magicMatches = true)
    (hl : body.length < h.prgSize.toNat * Config.prgBankSize + h.chrSize.toNat * Config.chrBankSize) :
    Cartridge.load file = .error .truncatedImage := by
  simp only [Cartridge.load, Cartridge.parse, hp, if_pos hm, if_pos hl]

/-- After the checks of header and length, the mapper decides (20_memory.md R75). -/
theorem Cartridge.load_of_fullBody (hm : h.magicMatches = true)
    (hl : h.prgSize.toNat * Config.prgBankSize + h.chrSize.toNat * Config.chrBankSize ≤ body.length) :
    Cartridge.load file = if h.mapperId = 0 then
      .ok ⟨h, Memory.ofBytes (body.take (h.prgSize.toNat * Config.prgBankSize)),
        Memory.ofBytes ((body.drop (h.prgSize.toNat * Config.prgBankSize)).take (h.chrSize.toNat * Config.chrBankSize))⟩
      else .error (.unsupportedMapper h.mapperId) := by
  simp only [Cartridge.load, Cartridge.parse, hp, if_pos hm, if_neg (Nat.not_lt.2 hl), Cartridge.mapperId,
    supportedMappers_contains_iff]

end

/-- A storage cut out of a file reads as the bytes of the file from where it starts (20_memory.md R72). -/
theorem Memory.read_ofBytes_slice (file : List Byte) {start size k : Nat} (hk : k < size) :
    Memory.read (Memory.ofBytes ((file.drop start).take size)) k = file.getD (start + k) 0 := by
  rw [Memory.read_ofBytes]
  simp only [List.getD_eq_getElem?_getD, List.getElem?_take_of_lt hk, List.getElem?_drop]
  rfl

theorem powerOn_of_loadError {file : List Byte} {e : LoadError} (h : Cartridge.load file = .error e) (v : PowerOnValues) :
    powerOn file v = .error e := by
  simp only [powerOn, h]

/-- Settles O26: the outcome of `load` by the first check that fails; the storages are slices of the file. -/
theorem loadChecksInOrder : Obligations.LoadChecksInOrder := by
  intro file at' magic prgBytes chrBytes mapper
  have hbody : (file.drop 16).length = file.length - 16 := List.length_drop
  refine ⟨Cartridge.load_of_short, fun hlen hmagic => ?_, fun hlen hmagic hshort => ?_, fun hlen hmagic hmapper => ?_,
    fun hlen hmagic hmapper => ?_, fun e v herr => powerOn_of_loadError herr v⟩
  · exact Cartridge.load_of_badMagic (Header.parse_long hlen) (by rwa [Header.magicMatches_iff])
  · have hl : (file.drop 16).length < prgBytes + chrBytes := by omega
    exact Cartridge.load_of_shortBody (Header.parse_long hlen) (Header.magicMatches_iff.2 hmagic) hl
  · have hl : prgBytes + chrBytes ≤ (file.drop 16).length := by omega
    exact (Cartridge.load_of_fullBody (Header.parse_long (by omega)) (Header.magicMatches_iff.2 hmagic) hl).trans
      (if_neg hmapper)
  · have hl : prgBytes + chrBytes ≤ (file.drop 16).length := by omega
    refine ⟨_, (Cartridge.load_of_fullBody (Header.parse_long (by omega)) (Header.magicMatches_iff.2 hmagic) hl).trans
      (if_pos hmapper), rfl, rfl, hmapper, fun k hk => Memory.read_ofBytes_slice file hk, fun k hk => ?_⟩
    rw [List.drop_drop]
    exact Memory.read_ofBytes_slice file hk

/-! ### What a write leaves to be seen -/

/-- Every address that shows the cell written shows the byte written (20_memory.md R52). -/
theorem Writes.peek_same {s t : State} {ea addr : Word} {v : Byte} (h : Writes s ea v t) (hwf : s.ram.wf = true)
    (hcell : SameRamCell addr ea) : peek t addr = some v := by
  obtain ⟨haddr, hea, hindex⟩ := hcell
  rcases h with ⟨-, rfl⟩ | ⟨hlo, -⟩ | ⟨hdma, -⟩
  · rw [peek_ram _ haddr, hindex, Memory.read_write_same _ _ hwf]
  · omega
  · omega

/-- Every address that shows no cell, or another cell than the one written, shows what it showed (20_memory.md R52, R63). -/
theorem Writes.peek_other {s t : State} {ea addr : Word} {v : Byte} (h : Writes s ea v t) (hwf : s.ram.wf = true)
    (hcell : ¬ SameRamCell addr ea) : peek t addr = peek s addr := by
  rcases writes_state h with ⟨rfl, hea⟩ | ⟨e, rfl⟩
  · by_cases haddr : addr.toNat ≤ 0x1FFF
    · have hindex : addr.toNat % 2048 ≠ ea.toNat % 2048 := fun heq => hcell ⟨haddr, hea, heq⟩
      rw [peek_ram _ haddr, peek_ram _ haddr, Memory.read_write_other v hwf hindex]
    · exact peek_notram (s := s) (t := withRam s _ v) rfl rfl addr (by omega)
  · exact peek_congr rfl rfl rfl addr

/-- Settles O15: a low-RAM address is routed by its remainder, and the write's cell is seen as `peek` sees it. -/
theorem ramAccessesAreMirrored : Obligations.RamAccessesAreMirrored := by
  intro s a b v ha
  have hphys : (a &&& 0x07FF).toNat = a.toNat % 2048 := toNat_and_lowMask a (n := 11) (by decide)
  have hread : busRead a s = .ok (Memory.read s.ram (a.toNat % 2048), s) := busRead_of_reads (.inl ⟨ha, rfl, rfl⟩)
  have hwrite : Writes s a v { s with ram := Memory.write s.ram (a.toNat % 2048) v } := .inl ⟨ha, rfl⟩
  refine ⟨hread, ?_, _, busWrite_of_writes hwrite, fun hwf hcell => busRead_of_peek (hwrite.peek_same hwf hcell),
    fun hwf hb hcell => busRead_of_peek ((hwrite.peek_other hwf hcell).trans (peek_ram s hb))⟩
  rw [hread, busRead_of_reads (.inl ⟨by omega, rfl, rfl⟩), hphys, Nat.mod_mod]

/-! ### Stores -/

theorem writes_of_exec_store {i : Instr} {s t : State} {ea : Word} (hstore : storeAddress i s = some ea)
    (h : exec i s = .next t) : Writes s ea (storedByte i.op s) t :=
  storeAt_next (exec_store hstore ▸ h)

/-- Settles O44: a store is the write of its byte at its address, and faults where that write does. -/
theorem dataWriteFaults : Obligations.DataWriteFaults := by
  intro i s ea f hstore hfault
  rw [exec_store hstore, storeAt_of_faults hfault]

/-- Settles O50: what the store's write leaves to be seen; an address above RAM names no cell. -/
theorem storesWriteOnlyTheAddressedCell : Obligations.StoresWriteOnlyTheAddressedCell := by
  intro i s t ea hwf hstore h
  have hwrite := writes_of_exec_store hstore h
  refine ⟨fun _ => hwrite.peek_other hwf, fun _ => hwrite.peek_same hwf, fun hea addr => ?_⟩
  exact hwrite.peek_other hwf fun ⟨_, hram, _⟩ => by omega

theorem fetch8_of_peek {s : State} {b : Byte} (h : peek s s.pc = some b) : fetch8 s = .ok (b, s.setPc (s.pc + 1)) := by
  simp only [fetch8, busRead_of_peek h]

/-- Settles O51: a fetch reads the byte that `peek` shows, and the store leaves its own byte to be seen. -/
theorem storedCodeIsFetched : Obligations.StoredCodeIsFetched := by
  intro i s t ea pc hwf hstore h hcell
  have hshown : peek t pc = some (storedByte i.op s) := (writes_of_exec_store hstore h).peek_same hwf hcell
  exact fetch8_of_peek (s := { t with pc := pc }) ((peek_congr rfl rfl rfl pc).trans hshown)

/-! ### The record of the collaborator -/

/-- Settles O52: the fetch records one read for each device byte it consumes, the execution the call of its data access. -/
theorem eventsAreRecordedInOrder : Obligations.EventsAreRecordedInOrder := by
  intro s t h
  obtain ⟨-, i, u, hfetch, hexec⟩ := step_next h
  exact ⟨i, u, hfetch, (fetchInstr_fetched hfetch).events, exec_events hexec⟩

/-- A state with another record of the collaborator: calls made, settled answers, counter of the free ones. -/
def State.withRecord (s : State) (events : List Event) (vidAnswers : List Byte) (vidReads : Nat) : State :=
  { s with events := events, vidAnswers := vidAnswers, vidReads := vidReads }

theorem SameCore.eq_withRecord {s s' : State} (h : SameCore s s') : s' = s.withRecord s'.events s'.vidAnswers s'.vidReads := by
  obtain ⟨ha, hx, hy, hsp, hp, hpc, hram, hbanks, hchr, hcart, hfault, hdone⟩ := h
  cases s
  cases s'
  simp only at *
  subst_vars
  rfl

section
variable (s : State) (es : List Event) (vs : List Byte) (n : Nat)

theorem sameCore_withRecord : SameCore s (s.withRecord es vs n) :=
  ⟨rfl, rfl, rfl, rfl, rfl, rfl, rfl, rfl, rfl, rfl, rfl, rfl⟩

theorem loadAddress_withRecord (i : Instr) : loadAddress i (s.withRecord es vs n) = loadAddress i s := by
  cases i <;> rfl

theorem storeAddress_withRecord (i : Instr) : storeAddress i (s.withRecord es vs n) = storeAddress i s := by
  cases i <;> rfl

theorem storedByte_withRecord (op : Op) : storedByte op (s.withRecord es vs n) = storedByte op s := by
  cases op <;> rfl

theorem sameCore_readEffect_withRecord (op : Op) (v : Byte) :
    SameCore (readEffect op v s) (readEffect op v (s.withRecord es vs n)) := by
  cases op <;> exact sameCore_withRecord _ es vs n

/-- A read outside the device window changes nothing, and answers the same byte under any record (20_memory.md R52, R57). -/
theorem Reads.withRecord_of_quiet {s t : State} {ea : Word} {v : Byte} (h : Reads s ea v t)
    (hea : ea.toNat < 0x2000 ∨ 0x3FFF < ea.toNat) :
    t = s ∧ Reads (s.withRecord es vs n) ea v (s.withRecord es vs n) := by
  rcases h with ⟨hram, hv, ht⟩ | ⟨hlo, hhi, -⟩ | ⟨hprg, hin, hv, ht⟩
  · exact ⟨ht, .inl ⟨hram, hv, rfl⟩⟩
  · omega
  · exact ⟨ht, .inr (.inr ⟨hprg, hin, hv, rfl⟩)⟩

theorem sameOutcome_readThen_withRecord {ea : Word} (op : Op) (hea : ea.toNat < 0x2000 ∨ 0x3FFF < ea.toNat) :
    SameOutcome (readThen ea (readEffect op) s) (readThen ea (readEffect op) (s.withRecord es vs n)) := by
  rcases reads_or_readFaults s ea with ⟨v, t, h⟩ | ⟨f, h⟩
  · obtain ⟨rfl, h'⟩ := h.withRecord_of_quiet es vs n hea
    rw [readThen_of_reads h, readThen_of_reads h']
    exact sameCore_readEffect_withRecord t es vs n op v
  · have h' : ReadFaults (s.withRecord es vs n) ea f := h
    rw [readThen_of_faults h, readThen_of_faults h']
    rfl

/-- A write completes under any record, adding its call to that record (20_memory.md R52 to R54). -/
theorem Writes.withRecord {s t : State} {ea : Word} {v : Byte} (h : Writes s ea v t) :
    ∃ es', Writes (s.withRecord es vs n) ea v (t.withRecord es' vs n) := by
  rcases h with ⟨hram, rfl⟩ | ⟨hlo, hhi, rfl⟩ | ⟨hdma, rfl⟩
  · exact ⟨es, .inl ⟨hram, rfl⟩⟩
  · exact ⟨_, .inr (.inl ⟨hlo, hhi, rfl⟩)⟩
  · exact ⟨_, .inr (.inr ⟨hdma, rfl⟩)⟩

theorem sameOutcome_storeAt_withRecord (ea : Word) (v : Byte) :
    SameOutcome (storeAt ea v s) (storeAt ea v (s.withRecord es vs n)) := by
  rcases writes_or_writeFaults s ea v with ⟨t, h⟩ | ⟨f, h⟩
  · obtain ⟨es', h'⟩ := h.withRecord es vs n
    rw [storeAt_of_writes h, storeAt_of_writes h']
    exact sameCore_withRecord t es' vs n
  · rw [storeAt_of_faults h, storeAt_of_faults h]
    rfl

/-- An instruction without a data access computes on the core alone (43_branch.md R210, 44_transfer_flag.md). -/
theorem sameOutcome_exec_registers_withRecord {i : Instr} (hload : loadAddress i s = none) (hstore : storeAddress i s = none) :
    SameOutcome (exec i s) (exec i (s.withRecord es vs n)) := by
  cases i <;> simp only [loadAddress, storeAddress, reduceCtorEq] at hload hstore
  case ldaImm nn => exact sameCore_readEffect_withRecord s es vs n .lda nn
  case ldxImm nn => exact sameCore_readEffect_withRecord s es vs n .ldx nn
  case ldyImm nn => exact sameCore_readEffect_withRecord s es vs n .ldy nn
  case andImm nn => exact sameCore_readEffect_withRecord s es vs n .and nn
  case cmpImm nn => exact sameCore_readEffect_withRecord s es vs n .cmp nn
  case beq off =>
    have hz : (s.withRecord es vs n).p.z = s.p.z := rfl
    simp only [exec, execBeq, hz]
    split <;> exact sameCore_withRecord _ es vs n
  case txs | cld | sei => exact sameCore_withRecord _ es vs n

end

/-- Settles O53: the data read outside the device window, the write and the register operations are the three shapes of an
execution, and each runs alike under any record. -/
theorem collaboratorCannotReachTheCore : Obligations.CollaboratorCannotReachTheCore := by
  intro i s s' hcore hquiet
  rw [hcore.eq_withRecord]
  cases hload : loadAddress i s with
  | some ea =>
    rw [exec_load hload, exec_load ((loadAddress_withRecord s _ _ _ i).trans hload)]
    exact sameOutcome_readThen_withRecord s _ _ _ i.op (hquiet ea hload)
  | none =>
    cases hstore : storeAddress i s with
    | some ea =>
      rw [exec_store hstore, exec_store ((storeAddress_withRecord s _ _ _ i).trans hstore), storedByte_withRecord]
      exact sameOutcome_storeAt_withRecord s _ _ _ ea _
    | none => exact sameOutcome_exec_registers_withRecord s _ _ _ hload hstore

end Sys2Proof.Machine
end

section
/-! PROOFS. The encoding (30_encoding.md R100 to R109). Decoder and encoder meet in the form of an opcode byte: a form the
decoder finds at `b` makes instructions whose encoding is `b` and then the operand bytes (`classifyOpcode_encodesAs`), and every
instruction is made by the form of its own opcode byte (`Instr.exists_form`). Both round trips are read off these two facts. -/

namespace Sys2Proof

/-! ### The form of an opcode byte -/

/-- The opcode byte of the instructions a form makes. It does not depend on the operand (`dispatch_encodesAs`), so 0 stands
for any. -/
def Form.opcode : Form → Byte
  | .f1 i => i.opcode
  | .f2 make => (make 0).opcode
  | .f3 make => (make 0).opcode

/-- What a form makes of its operand encodes as the opcode byte `b` and that operand, a word low byte first
(30_encoding.md R100). -/
def Form.EncodesAs (b : Byte) : Form → Prop
  | .f1 i => encode i = [b]
  | .f2 make => ∀ nn, encode (make nn) = [b, nn]
  | .f3 make => ∀ nnnn, encode (make nnnn) = [b, lowByte nnnn, highByte nnnn]

/-- The form makes this instruction, from some operand. -/
def Form.Makes (i : Instr) : Form → Prop
  | .f1 j => i = j
  | .f2 make => ∃ nn, i = make nn
  | .f3 make => ∃ nnnn, i = make nnnn

theorem dispatch_encodesAs {op : Op} {mode : Mode} {form : Form} (h : dispatch op mode = some form) :
    form.EncodesAs form.opcode := by
  cases op <;> cases mode <;> cases h <;>
    simp [Form.EncodesAs, Form.opcode, encode, Instr.opcode, Instr.operandBytes]

/-- The opcode byte read back from the form of `b`, and `b` itself where it has no form. -/
def OpcodeClass.readBack (b : Byte) : OpcodeClass → Byte
  | .illegal | .unimplemented _ _ => b
  | .implemented form => form.opcode

/-- No two opcode bytes spell one instruction (30_encoding.md R109): each of the 256 is read back from its form. -/
theorem readBack_classifyOpcode : ∀ b : Byte, (classifyOpcode b).readBack b = b := by decide

theorem classifyOpcode_encodesAs {b : Byte} {form : Form} (h : classifyOpcode b = .implemented form) : form.EncodesAs b := by
  have hb : form.opcode = b := by simpa only [h, OpcodeClass.readBack] using readBack_classifyOpcode b
  obtain ⟨op, mode, hd⟩ := dispatch_of_classifyOpcode h
  exact hb ▸ dispatch_encodesAs hd

/-- Every instruction has a form at its pair (30_encoding.md R108). -/
theorem Instr.exists_form (i : Instr) : ∃ form, dispatch i.op i.mode = some form ∧ form.Makes i := by
  cases i
  case txs | cld | sei => exact ⟨_, rfl, rfl⟩
  all_goals exact ⟨_, rfl, _, rfl⟩

/-! ### The round trips -/

/-- Settles O1: the opcode byte has the form that makes the instruction, and the encoding lists what that form consumes. -/
theorem decodeOfEncodeIsIdentity : Obligations.DecodeOfEncodeIsIdentity := by
  intro i rest
  obtain ⟨form, hd, hi⟩ := i.exists_form
  have hc := classifyOpcode_opcode i hd
  have henc := classifyOpcode_encodesAs hc
  cases form with
  | f1 j =>
    obtain rfl : i = j := hi
    rw [show encode i = [i.opcode] from henc]
    exact decode_f1 rest hc
  | f2 make =>
    obtain ⟨nn, rfl⟩ := hi
    rw [henc nn]
    exact decode_f2 nn rest hc
  | f3 make =>
    obtain ⟨nnnn, rfl⟩ := hi
    have hdecode := decode_f3 (lowByte nnnn) (highByte nnnn) rest hc
    rw [wordOfBytes_lowByte_highByte] at hdecode
    rw [henc nnnn]
    exact hdecode

/-- Settles O2: what the decoder consumed is the opcode byte of a form and its operand bytes, which is how that form encodes. -/
theorem encodeOfDecodeIsIdentity : Obligations.EncodeOfDecodeIsIdentity := by
  intro bytes rest i h
  rcases decode_instr h with ⟨b, rfl, hc⟩ | ⟨b, b1, make, rfl, hc, rfl⟩ | ⟨b, b1, b2, make, rfl, hc, rfl⟩
  · have henc : encode i = [b] := classifyOpcode_encodesAs hc
    rw [henc, List.singleton_append]
  · have henc : encode (make b1) = [b, b1] := classifyOpcode_encodesAs hc b1
    rw [henc, List.cons_append, List.singleton_append]
  · have henc : encode (make (wordOfBytes b1 b2)) = [b, _, _] := classifyOpcode_encodesAs hc (wordOfBytes b1 b2)
    rw [henc, lowByte_wordOfBytes, highByte_wordOfBytes, List.cons_append, List.cons_append, List.singleton_append]

/-! ### The opcode bytes and the lengths -/

/-- Settles O3: each row of the grid is looked up, and the bytes outside it are tried one by one. -/
theorem opcodeOutcomeMap : Obligations.OpcodeOutcomeMap := by
  refine ⟨rfl, rfl, ?grid, ?unimplemented, ?illegal⟩
  case grid => decide
  case unimplemented => decide
  case illegal => decide

/-- No length is negative, so the length in bytes is the sum of 30_encoding.md R107 itself. -/
theorem instrLength_eq (op : Op) (mode : Mode) : (instrLength op mode : Int) = baseLength op + modeDelta mode := by
  cases mode <;> rfl

theorem length_encode (i : Instr) : (encode i).length = instrLength i.op i.mode := by
  simpa using decode_length (decodeOfEncodeIsIdentity i [])

/-- Settles O5: the decoder and the encoder both give `instrLength`, which is the sum of base and delta. -/
theorem lengthLaw : Obligations.LengthLaw := by
  refine ⟨fun _ => rfl, ?delta, ?decoded, ?encoded⟩
  case delta => intro mode; cases mode <;> rfl
  case decoded => intro b op mode len h; rw [decodeOpcode_length h, instrLength_eq]
  case encoded => intro i; rw [length_encode, instrLength_eq]

end Sys2Proof
end

section
/-! PROOFS. The effective address of each mode as a number (30_encoding.md R112 to R119). -/

namespace Sys2Proof.Machine

theorem toNat_zext16 (b : Byte) : (zext16 b).toNat = b.toNat :=
  BitVec.toNat_setWidth_of_le (by decide)

/-- A word indexed by a byte wraps at 65536. -/
theorem toNat_add_zext16 (w : Word) (b : Byte) : (w + zext16 b).toNat = (w.toNat + b.toNat) % 65536 := by
  rw [BitVec.toNat_add, toNat_zext16]

theorem toNat_addrIzx (nn : Byte) (s : State) : (addrIzx nn s).toNat = zeroPageWord s (nn.toNat + s.x.toNat) := by
  rw [addrIzx, toNat_zeroPagePointer, toNat_byte_add, zeroPageWord_mod]

theorem toNat_addrIzy (nn : Byte) (s : State) :
    (addrIzy nn s).toNat = (zeroPageWord s nn.toNat + s.y.toNat) % 65536 := by
  rw [addrIzy, toNat_add_zext16, toNat_zeroPagePointer]

/-- Settles O45: a zero-page sum is taken in a byte and then widened, an absolute or indirect one in a word. -/
theorem addressingModes : Obligations.AddressingModes := by
  intro s nn nnnn
  refine ⟨toNat_zext16 nn, ?zpx, ?zpy, rfl, toNat_add_zext16 nnnn s.x, toNat_add_zext16 nnnn s.y, toNat_addrIzx nn s,
    toNat_addrIzy nn s⟩
  case zpx => rw [addrZpx, toNat_zext16, toNat_byte_add]
  case zpy => rw [addrZpy, toNat_zext16, toNat_byte_add]

end Sys2Proof.Machine
end

section
/-! PROOFS. The data read of a load, AND or CMP (40_load.md, 42_logic_compare.md), whatever the operation and its mode: the
instruction completes with the effect of its operation where the read of its effective address completes, and ends in the read's
fault where that faults. The statements write the addresses and the flags in numbers; they are those of the model
(Sys2Proof/Laws/Rules.lean). -/

namespace Sys2Proof.Machine

/-! ### The data read of any operation -/

theorem exec_of_reads {i : Instr} {s t : State} {ea : Word} {v : Byte} (hload : loadAddress i s = some ea)
    (hread : Reads s ea v t) : exec i s = .next (readEffect i.op v t) := by
  rw [exec_load hload, readThen_of_reads hread]

/-- In the zero-page modes the read always completes, with the byte of the RAM cell (20_memory.md R52). -/
theorem exec_of_zeroPage {i : Instr} {s : State} (zp : Byte) (hload : loadAddress i s = some (zext16 zp)) :
    exec i s = .next (readEffect i.op (Memory.read s.ram zp.toNat) s) := by
  rw [exec_load hload, readThen_zeroPage, zeroPageByte]

/-- Settles O43: the data read is the first thing the instruction does, so its fault is the outcome. -/
theorem dataReadFaults : Obligations.DataReadFaults := by
  intro i s ea f hload hfault
  rw [exec_load hload, readThen_of_faults hfault]

/-! ### The loads -/

theorem loadA_eq_withNZ (v : Byte) (s : State) : loadA v s = { s with a := v, p := withNZ v s.p } := by
  rw [withNZ_eq, loadA]

theorem loadX_eq_withNZ (v : Byte) (s : State) : loadX v s = { s with x := v, p := withNZ v s.p } := by
  rw [withNZ_eq, loadX]

theorem loadY_eq_withNZ (v : Byte) (s : State) : loadY v s = { s with y := v, p := withNZ v s.p } := by
  rw [withNZ_eq, loadY]

/-- Settles O33: each memory form is a completing read followed by `loadA`. -/
theorem ldaLoadsAccumulator : Obligations.LdaLoadsAccumulator := by
  intro s t nn v nnnn
  simp only [← loadA_eq_withNZ, ← toNat_byte_add, ofNat_add_zext16, addrIzx_eq, addrIzy_eq]
  refine ⟨?imm, ?zp, ?zpx, ?abs, ?abx, ?aby, ?izx, ?izy⟩
  case imm => rfl
  case zp => exact exec_of_zeroPage nn rfl
  case zpx => exact exec_of_zeroPage (nn + s.x) rfl
  case abs | abx | aby | izx | izy => exact exec_of_reads rfl

/-- Settles O34: each memory form is a completing read followed by `loadX`. -/
theorem ldxLoadsIndexX : Obligations.LdxLoadsIndexX := by
  intro s t nn v nnnn
  simp only [← loadX_eq_withNZ, ← toNat_byte_add, ofNat_add_zext16]
  refine ⟨?imm, ?zp, ?zpy, ?abs, ?aby⟩
  case imm => rfl
  case zp => exact exec_of_zeroPage nn rfl
  case zpy => exact exec_of_zeroPage (nn + s.y) rfl
  case abs | aby => exact exec_of_reads rfl

/-- Settles O35: each memory form is a completing read followed by `loadY`. -/
theorem ldyLoadsIndexY : Obligations.LdyLoadsIndexY := by
  intro s t nn v nnnn
  simp only [← loadY_eq_withNZ, ← toNat_byte_add, ofNat_add_zext16]
  refine ⟨?imm, ?zp, ?zpx, ?abs, ?abx⟩
  case imm => rfl
  case zp => exact exec_of_zeroPage nn rfl
  case zpx => exact exec_of_zeroPage (nn + s.x) rfl
  case abs | abx => exact exec_of_reads rfl

end Sys2Proof.Machine
end

section
/-! PROOFS. The write of a store (41_store.md), whatever the register and the mode: the instruction answers the state that the
write of the register's byte at its effective address leaves (20_memory.md R52 to R54), and so records no read and touches no register
or flag. The statements write the addresses in numbers; they are those of the model (Sys2Proof/Laws/Rules.lean). -/

namespace Sys2Proof.Machine

/-! ### The write of any store -/

theorem exec_of_writes {i : Instr} {s t : State} {ea : Word} (hstore : storeAddress i s = some ea)
    (hwrite : Writes s ea (storedByte i.op s) t) : exec i s = .next t := by
  rw [exec_store hstore, storeAt_of_writes hwrite]

/-- In the zero-page modes the write always completes, into the RAM cell (20_memory.md R52). -/
theorem exec_store_of_zeroPage {i : Instr} {s : State} (zp : Byte) (hstore : storeAddress i s = some (zext16 zp)) :
    exec i s = .next (withRam s zp.toNat (storedByte i.op s)) := by
  rw [exec_store hstore, storeAt_zeroPage, withRam]

/-! ### The stores of A, X and Y -/

/-- Settles O38: the byte STA writes is `A`, at the effective address of its mode. -/
theorem staStoresAccumulator : Obligations.StaStoresAccumulator := by
  intro s t nn nnnn
  simp only [← toNat_byte_add, ofNat_add_zext16, addrIzx_eq, addrIzy_eq]
  refine ⟨?zp, ?zpx, ?abs, ?abx, ?aby, ?izx, ?izy⟩
  case zp => exact exec_store_of_zeroPage nn rfl
  case zpx => exact exec_store_of_zeroPage (nn + s.x) rfl
  case abs | abx | aby | izx | izy => exact fun hwrite => exec_of_writes rfl hwrite

/-- Settles O39: the byte STX writes is `X`, and its indexed zero-page mode takes the index from `Y`. -/
theorem stxStoresIndexX : Obligations.StxStoresIndexX := by
  intro s t nn nnnn
  rw [← toNat_byte_add]
  refine ⟨?zp, ?zpy, ?abs⟩
  case zp => exact exec_store_of_zeroPage nn rfl
  case zpy => exact exec_store_of_zeroPage (nn + s.y) rfl
  case abs => exact fun hwrite => exec_of_writes rfl hwrite

/-- Settles O40: the byte STY writes is `Y`, and its indexed zero-page mode takes the index from `X`. -/
theorem styStoresIndexY : Obligations.StyStoresIndexY := by
  intro s t nn nnnn
  rw [← toNat_byte_add]
  refine ⟨?zp, ?zpx, ?abs⟩
  case zp => exact exec_store_of_zeroPage nn rfl
  case zpx => exact exec_store_of_zeroPage (nn + s.x) rfl
  case abs => exact fun hwrite => exec_of_writes rfl hwrite

end Sys2Proof.Machine
end

section
/-! PROOFS. AND and CMP (42_logic_compare.md), whatever the mode. Both combine the operand byte with `A` as it stands after the data
read; the statements name the `A` of before, which no read touches (`reads_keeps`). -/

namespace Sys2Proof.Machine

/-! ### The effects on the state the read leaves -/

theorem andA_eq_withNZ (m : Byte) (s : State) : andA m s = { s with a := s.a &&& m, p := withNZ (s.a &&& m) s.p } := by
  rw [withNZ_eq, andA]

theorem cmpA_eq_withCompare (m : Byte) (s : State) : cmpA m s = { s with p := withCompare s.a m s.p } := by
  rw [withCompare_eq, cmpA, State.setP]

/-! ### The memory forms, in terms of the `A` of before -/

theorem exec_and_of_reads {i : Instr} {s t : State} {ea : Word} {m : Byte} (hop : i.op = .and)
    (hload : loadAddress i s = some ea) (hread : Reads s ea m t) :
    exec i s = .next { t with a := s.a &&& m, p := withNZ (s.a &&& m) t.p } := by
  obtain ⟨-, ha⟩ := reads_keeps hread
  rw [exec_of_reads hload hread, hop, ← ha, ← andA_eq_withNZ, readEffect]

theorem exec_cmp_of_reads {i : Instr} {s t : State} {ea : Word} {m : Byte} (hop : i.op = .cmp)
    (hload : loadAddress i s = some ea) (hread : Reads s ea m t) :
    exec i s = .next { t with p := withCompare s.a m t.p } := by
  obtain ⟨-, ha⟩ := reads_keeps hread
  rw [exec_of_reads hload hread, hop, ← ha, ← cmpA_eq_withCompare, readEffect]

/-- Settles O36: each memory form is a completing read followed by `andA`. -/
theorem andMasksAccumulator : Obligations.AndMasksAccumulator := by
  intro s t nn v nnnn
  simp only [← andA_eq_withNZ, ← toNat_byte_add, ofNat_add_zext16, addrIzx_eq, addrIzy_eq]
  refine ⟨?imm, ?zp, ?zpx, ?abs, ?abx, ?aby, ?izx, ?izy⟩
  case imm => rfl
  case zp => exact exec_of_zeroPage nn rfl
  case zpx => exact exec_of_zeroPage (nn + s.x) rfl
  case abs | abx | aby | izx | izy => exact exec_and_of_reads rfl rfl

/-- Settles O37: each memory form is a completing read followed by `cmpA`. -/
theorem cmpComparesAccumulator : Obligations.CmpComparesAccumulator := by
  intro s t nn v nnnn
  simp only [← cmpA_eq_withCompare, ← toNat_byte_add, ofNat_add_zext16, addrIzx_eq, addrIzy_eq]
  refine ⟨?imm, ?zp, ?zpx, ?abs, ?abx, ?aby, ?izx, ?izy⟩
  case imm => rfl
  case zp => exact exec_of_zeroPage nn rfl
  case zpx => exact exec_of_zeroPage (nn + s.x) rfl
  case abs | abx | aby | izx | izy => exact exec_cmp_of_reads rfl rfl

end Sys2Proof.Machine
end

section
/-! PROOFS. BEQ (43_branch.md R210): the branch target as a number, and the step that comes to the branch or faults on the offset
byte. -/

namespace Sys2Proof.Machine

/-! ### The target of a taken branch -/

/-- An offset from 0x80 on is negative: in 16 bits its high byte is 0xFF (00_scope.md R7). -/
theorem toNat_sext16 (off : Byte) : (sext16 off).toNat = off.toNat + if off.toNat < 128 then 0 else 0xFF00 := by
  have hmsb : off.msb = decide (128 ≤ off.toNat) := off.msb_eq_decide
  rw [sext16, BitVec.toNat_signExtend, BitVec.toNat_setWidth_of_le (by decide), hmsb]
  by_cases h : off.toNat < 128
  · simp [h, Nat.not_le.2 h]
  · simp [h, Nat.not_lt.1 h]

theorem branchTarget_eq (off : Byte) (s : State) :
    branchTarget off s = BitVec.ofNat 16 (s.pc.toNat + off.toNat + if off.toNat < 128 then 0 else 0xFF00) := by
  rw [Nat.add_assoc, ← toNat_sext16, BitVec.ofNat_add]
  simp only [BitVec.ofNat_toNat, BitVec.setWidth_eq, branchTarget]

/-- `BEQ` completes in every state (43_branch.md R210). -/
theorem exec_beq (off : Byte) (s : State) :
    exec (.beq off) s = .next (if s.p.z = true then s.setPc (branchTarget off s) else s) :=
  (apply_ite Host.Outcome.next _ _ _).symm

/-! ### The fetch of the offset byte -/

/-- A fault of the only operand fetch is the fault of the whole fetch (60_exceptions.md R241). -/
theorem fetchInstr_operandFault {s t : State} {b : Byte} {make : Byte → Instr} {f : Fault} (h : fetch8 s = .ok (b, t))
    (hc : classifyOpcode b = .implemented (.f2 make)) (hf : fetch8 t = .error f) : fetchInstr s = .error (f, t) := by
  simp only [fetchInstr, h, hc, hf]

/-- Settles O41: the branch is decided in the state past both bytes, where its target is `branchTarget`; a fault of the offset
fetch comes before it. -/
theorem beqBranchesOnZero : Obligations.BeqBranchesOnZero := by
  intro s t u off f
  refine ⟨?effect, ?step, ?fault⟩
  case effect => rw [exec_beq, branchTarget_eq, State.setPc]
  case step =>
    intro hs hbytes
    have hfetch : fetchInstr s = .ok (.beq off, t) := fetchInstr_of_decode hbytes rfl
    exact ⟨(fetchBytes_fetched hbytes).pc, step_of_fetch hs hfetch⟩
  case fault =>
    intro hs hopcode hoffset
    have hfetch : fetchInstr s = .error (f, u) := fetchInstr_operandFault hopcode rfl (fetch8_error.2 hoffset)
    exact step_of_fetchFault hs hfetch

end Sys2Proof.Machine
end

section
/-! PROOFS. TXS, CLD, SEI (44_transfer_flag.md R220 to R222): the effect of each in every state, and the step of an instruction
that is its opcode byte alone. -/

namespace Sys2Proof.Machine

/-- `TXS` completes in every state and writes no flag (44_transfer_flag.md R220). -/
theorem exec_txs (s : State) : exec .txs s = .next (s.setSp s.x) := rfl

/-- `CLD` completes in every state (44_transfer_flag.md R221). -/
theorem exec_cld (s : State) : exec .cld s = .next (s.setP { s.p with d := false }) := rfl

/-- `SEI` completes in every state (44_transfer_flag.md R222). -/
theorem exec_sei (s : State) : exec .sei s = .next (s.setP { s.p with i := true }) := rfl

/-- `P.I` is 1 all through a run, so there `SEI` changes no bit (44_transfer_flag.md R222). -/
theorem exec_sei_of_interruptDisable {s : State} (hi : s.p.i = true) : exec .sei s = .next s := by
  have hp : { s.p with i := true } = s.p := by rw [← hi]
  rw [exec_sei, hp, State.setP]

/-- An instruction of one byte runs in the state its opcode fetch leaves (70_reset_and_hazards.md R262). -/
theorem step_of_oneByte {s t : State} {b : Byte} {i : Instr} (hs : s.Ready) (h : fetch8 s = .ok (b, t))
    (hd : decode [b] = .instr i []) : step s = exec i t := by
  have hbytes : fetchBytes 1 s = .ok ([b], t) := fetchBytes_cons h rfl
  exact step_of_fetch hs (fetchInstr_of_decode hbytes hd)

/-- Settles O42: each step is the effect of its instruction, in the state past the opcode byte. -/
theorem txsCldSeiEffects : Obligations.TxsCldSeiEffects := by
  intro s t
  refine ⟨exec_txs s, exec_cld s, exec_sei s, ?seiInRun, ?txsStep, ?cldStep, ?seiStep⟩
  case seiInRun => exact fun hinv => exec_sei_of_interruptDisable hinv.interruptDisable
  case txsStep => exact fun hs hopcode => (step_of_oneByte hs hopcode rfl).trans (exec_txs t)
  case cldStep => exact fun hs hopcode => (step_of_oneByte hs hopcode rfl).trans (exec_cld t)
  case seiStep => exact fun hs hopcode => (step_of_oneByte hs hopcode rfl).trans (exec_sei t)

end Sys2Proof.Machine
end

section
/-! PROOFS. The faults of 60_exceptions.md. Each of the three faults of the Memory Bus (R234 to R236) is bounded once by the address
of the access that ends in it; `step_fault_cases` says once where a step can meet a fault, so the statements about a step are read
off those bounds. Decode and operand fetch fault in the order of R241, and what the host is left with is the state of the fault,
latched (R230, R242). -/

namespace Sys2Proof.Machine

/-! ### The latch -/

theorem stepCall_latched {s : State} {f : Fault} (h : s.fault = some f) : stepCall s = .refused .faultLatched := by
  simp only [stepCall, step_latched h]

/-- Settles O12: both calls look at the latch before anything else. -/
theorem faultedMachineHasNoStep : Obligations.FaultedMachineHasNoStep :=
  fun _ _ h => ⟨step_latched h, resetCall_latched h⟩

/-- Settles O13: the machine left is the one of `State.atFault` with the fault latched, and a latched machine is refused. -/
theorem faultIsLatchedAndEndsTheRun : Obligations.FaultIsLatchedAndEndsTheRun := by
  intro s f h
  have hlatch : (s.atFault.latch f).fault = some f := State.latch_fault _ f
  exact ⟨s.atFault.latch f, stepCall_of_fault h, hlatch, stepCall_latched hlatch, resetCall_latched hlatch⟩

/-! ### Decode and dispatch -/

theorem step_of_illegal {s t : State} {b : Byte} (hs : s.Ready) (h : fetch8 s = .ok (b, t)) (hd : decodeOpcode b = none) :
    step s = .fault (.illegalOpcode b s.pc) :=
  step_of_fetchFault hs (fetchInstr_illegal h (classifyOpcode_illegal hd))

theorem step_of_unimplemented {s t : State} {b : Byte} {op : Op} {mode : Mode} (hs : s.Ready) (h : fetch8 s = .ok (b, t))
    (hd : decode [b] = .unimplemented op mode b) : step s = .fault (.unimplementedInstruction op mode b s.pc) :=
  step_of_fetchFault hs (fetchInstr_unimplemented h (classifyOpcode_unimplemented hd))

/-- Settles O9: the byte read at `PC` is the opcode byte of the fetch. -/
theorem illegalOpcodeFaults : Obligations.IllegalOpcodeFaults :=
  fun _ _ _ hs hread hd => step_of_illegal hs (fetch8_of_reads hread) hd

/-- Settles O10: the 14 rows are those of `opcodeOutcomeMap`. -/
theorem unimplementedInstructionFaults : Obligations.UnimplementedInstructionFaults := by
  intro s t b op mode hs hread hrow
  obtain ⟨-, -, -, hunimplemented, -⟩ := opcodeOutcomeMap
  exact step_of_unimplemented hs (fetch8_of_reads hread) (hunimplemented (b, op, mode) hrow)

/-! ### Operand fetches -/

theorem fetchInstr_lowOperandFault {s t : State} {b : Byte} {make : Word → Instr} {f : Fault} (h : fetch8 s = .ok (b, t))
    (hc : classifyOpcode b = .implemented (.f3 make)) (hf : fetch8 t = .error f) : fetchInstr s = .error (f, t) := by
  simp only [fetchInstr, h, hc, hf]

theorem fetchInstr_highOperandFault {s t u : State} {b b1 : Byte} {make : Word → Instr} {f : Fault}
    (h : fetch8 s = .ok (b, t)) (hc : classifyOpcode b = .implemented (.f3 make)) (h1 : fetch8 t = .ok (b1, u))
    (hf : fetch8 u = .error f) : fetchInstr s = .error (f, u) := by
  simp only [fetchInstr, h, hc, h1, hf]

section
variable {s t : State} {b : Byte} {op : Op} {mode : Mode} {len : Nat} {f : Fault} (hs : s.Ready) (h : fetch8 s = .ok (b, t))
  (hd : decodeOpcode b = some (op, mode, len)) (hi : (dispatch op mode).isSome = true)
include hs h hd hi

/-- An instruction of two or three bytes reads its first operand byte next. -/
theorem step_of_firstOperandFault (hlen : 2 ≤ len) (hf : ReadFaults t t.pc f) : step s = .fault f := by
  obtain ⟨form, hc, hoperands⟩ := classifyOpcode_implemented hd hi
  have hfetch := fetch8_error.2 hf
  have herror : fetchInstr s = .error (f, t) := by
    cases form with
    | f1 i => simp only [Form.operands] at hoperands; omega
    | f2 make => exact fetchInstr_operandFault h hc hfetch
    | f3 make => exact fetchInstr_lowOperandFault h hc hfetch
  exact step_of_fetchFault hs herror

/-- An instruction of three bytes reads its second operand byte after the first. -/
theorem step_of_secondOperandFault {u : State} {b1 : Byte} (hlen : len = 3) (h1 : fetch8 t = .ok (b1, u))
    (hf : ReadFaults u u.pc f) : step s = .fault f := by
  obtain ⟨form, hc, hoperands⟩ := classifyOpcode_implemented hd hi
  have herror : fetchInstr s = .error (f, u) := by
    cases form with
    | f1 i | f2 make => simp only [Form.operands] at hoperands; omega
    | f3 make => exact fetchInstr_highOperandFault h hc h1 (fetch8_error.2 hf)
  exact step_of_fetchFault hs herror

end

/-- Settles O11: one clause for each action of the fetch, in the order it makes them. -/
theorem firstFaultInActionOrderWins : Obligations.FirstFaultInActionOrderWins := by
  intro s t u b b1 op mode f hs
  refine ⟨?opcode, ?illegal, ?unimplemented, ?onlyOperand, ?firstOperand, ?secondOperand⟩
  case opcode => exact fun hf => step_of_fetchFault hs (fetchInstr_opcodeFault (fetch8_error.2 hf))
  case illegal => exact step_of_illegal hs
  case unimplemented => exact step_of_unimplemented hs
  case onlyOperand | firstOperand => exact fun h hd hi => step_of_firstOperandFault hs h hd hi (by decide)
  case secondOperand => exact fun h hd hi => step_of_secondOperandFault hs h hd hi rfl

/-! ### The faults of the bus, by address -/

theorem readFaults_unmappedAddress {s : State} {a b : Word} :
    ReadFaults s a (.unmappedAddress b) ↔ b = a ∧ (a.toNat = 0x4014 ∨ (0x4020 ≤ a.toNat ∧ a.toNat ≤ 0x7FFF)) := by
  simp only [ReadFaults, Fault.unmappedAddress.injEq, reduceCtorEq, and_false, or_false, false_or]
  tauto

theorem not_writeFaults_unmappedAddress {a b : Word} : ¬ WriteFaults a (.unmappedAddress b) := by
  simp [WriteFaults]

theorem not_readFaults_readOnlyViolation {s : State} {a b : Word} : ¬ ReadFaults s a (.readOnlyViolation b) := by
  simp [ReadFaults]

theorem writeFaults_readOnlyViolation {a b : Word} :
    WriteFaults a (.readOnlyViolation b) ↔ b = a ∧ 0x4020 ≤ a.toNat := by
  simp [WriteFaults, and_comm]

theorem readFaults_unimplementedRegion {s : State} {a b : Word} :
    ReadFaults s a (.unimplementedRegion b) ↔ b = a ∧ 0x4000 ≤ a.toNat ∧ a.toNat ≤ 0x401F ∧ a.toNat ≠ 0x4014 := by
  simp only [ReadFaults, Fault.unimplementedRegion.injEq, reduceCtorEq, and_false, or_false, false_or]
  tauto

theorem writeFaults_unimplementedRegion {a b : Word} :
    WriteFaults a (.unimplementedRegion b) ↔ b = a ∧ 0x4000 ≤ a.toNat ∧ a.toNat ≤ 0x401F ∧ a.toNat ≠ 0x4014 := by
  simp only [WriteFaults, Fault.unimplementedRegion.injEq, reduceCtorEq, and_false, or_false]
  tauto

/-- Where a step meets its fault: in the fetch, in the data read, or in the data write (60_exceptions.md R241). -/
theorem step_fault_cases {s : State} {f : Fault} (h : step s = .fault f) :
    (∃ r, fetchInstr s = .error (f, r)) ∨ ∃ i u, fetchInstr s = .ok (i, u) ∧
      ((∃ ea, loadAddress i u = some ea ∧ ReadFaults u ea f) ∨ ∃ ea, storeAddress i u = some ea ∧ WriteFaults ea f) := by
  obtain ⟨-, hfetch | ⟨i, u, hfetch, hexec⟩⟩ := step_fault h
  · exact .inl hfetch
  · exact .inr ⟨i, u, hfetch, exec_fault hexec⟩

/-- A word read faults at one of its two addresses (20_memory.md R59). -/
theorem readWord_error {s r : State} {a : Word} {f : Fault} (h : readWord a s = .error (f, r)) :
    ReadFaults r a f ∨ ReadFaults r (a + 1) f := by
  unfold readWord at h
  split at h
  · cases h; exact .inl (busRead_eq_error.1 ‹_›)
  split at h
  · cases h; exact .inr (busRead_eq_error.1 ‹_›)
  · cases h

/-- The only fault of `reset()` is that of its vector read (70_reset_and_hazards.md R261). -/
theorem resetCall_fault {s : State} {f : Fault} (h : resetCall s = .fault f) :
    ∃ r, ReadFaults r 0xFFFC f ∨ ReadFaults r 0xFFFD f := by
  unfold resetCall at h
  split at h
  · cases h
  split at h
  · cases h; exact ⟨_, readWord_error ‹_›⟩
  · cases h

/-- The vector lies in program storage, where every address is mapped. -/
theorem resetCall_ne_unmappedAddress (s : State) (b : Word) : resetCall s ≠ .fault (.unmappedAddress b) := by
  intro h
  obtain ⟨r, hr⟩ := resetCall_fault h
  simp [readFaults_unmappedAddress] at hr

/-- Settles O16: of the accesses a step makes, only a read ends in this fault, and the fault names its address. -/
theorem unmappedAddressFaults : Obligations.UnmappedAddressFaults := by
  intro s a b v
  simp only [ne_eq, busRead_eq_error, busWrite_eq_error, readFaults_unmappedAddress]
  refine ⟨fun ha => ⟨trivial, ha⟩, id, not_writeFaults_unmappedAddress, resetCall_ne_unmappedAddress s b, fun h => ?_⟩
  obtain hfetch | ⟨i, u, hfetch, ⟨ea, hload, hread⟩ | ⟨ea, -, hwrite⟩⟩ := step_fault_cases h
  · exact .inl hfetch
  · obtain ⟨rfl, -⟩ := readFaults_unmappedAddress.1 hread
    exact .inr ⟨i, u, hfetch, hload⟩
  · exact absurd hwrite not_writeFaults_unmappedAddress

/-- A fetch only reads, and no read ends in this fault (60_exceptions.md R235). -/
theorem fetchInstr_ne_readOnlyViolation {s r : State} {b : Word} : fetchInstr s ≠ .error (.readOnlyViolation b, r) := by
  intro h
  obtain ⟨n, bytes, -, hread⟩ | ⟨_, -, heq⟩ | ⟨_, _, _, -, heq⟩ := fetchInstr_error h
  · exact not_readFaults_readOnlyViolation hread
  · cases heq
  · cases heq

/-- Settles O17: of the accesses a step makes, only the data write of a store ends in this fault. -/
theorem readOnlyViolationFaults : Obligations.ReadOnlyViolationFaults := by
  intro s a b v
  simp only [ne_eq, busRead_eq_error, busWrite_eq_error, writeFaults_readOnlyViolation]
  refine ⟨fun ha => ⟨trivial, ha⟩, id, not_readFaults_readOnlyViolation, fun h => ?_⟩
  obtain ⟨r, hfetch⟩ | ⟨i, u, hfetch, ⟨ea, -, hread⟩ | ⟨ea, hstore, hwrite⟩⟩ := step_fault_cases h
  · exact absurd hfetch fetchInstr_ne_readOnlyViolation
  · exact absurd hread not_readFaults_readOnlyViolation
  · obtain ⟨rfl, -⟩ := writeFaults_readOnlyViolation.1 hwrite
    exact ⟨i, u, hfetch, storeAddress_op hstore, hstore⟩

/-- Settles O18: a read and a write of these registers fault alike, and the fault names the address. -/
theorem unimplementedRegionFaults : Obligations.UnimplementedRegionFaults := by
  intro s a b v
  simp only [busRead_eq_error, busWrite_eq_error, readFaults_unimplementedRegion, writeFaults_unimplementedRegion, or_self]
  refine ⟨fun hlo hhi hne => ⟨⟨trivial, hlo, hhi, hne⟩, trivial, hlo, hhi, hne⟩, id, fun h => ?_⟩
  obtain hfetch | ⟨i, u, hfetch, ⟨ea, hload, hread⟩ | ⟨ea, hstore, hwrite⟩⟩ := step_fault_cases h
  · exact .inl hfetch
  · obtain ⟨rfl, -⟩ := readFaults_unimplementedRegion.1 hread
    exact .inr ⟨i, u, hfetch, .inl hload⟩
  · obtain ⟨rfl, -⟩ := writeFaults_unimplementedRegion.1 hwrite
    exact .inr ⟨i, u, hfetch, .inr hstore⟩

/-! ### The record a fault leaves -/

theorem stepCall_faulted {s t : State} {f : Fault} (h : stepCall s = .faulted f t) :
    step s = .fault f ∧ t = s.atFault.latch f := by
  unfold stepCall at h
  split at h
  · cases h
  · cases h; exact ⟨‹_›, rfl⟩
  · cases h

/-- The opcode fetch records the call of its own read (20_memory.md R64). -/
theorem fetchBytes_one_events {s r : State} {bytes : List Byte} (h : fetchBytes 1 s = .ok (bytes, r)) :
    r.events = s.events ++ readCalls s.pc := by
  simpa only [fetchCalls, List.append_nil] using (fetchBytes_fetched h).events

/-- Settles O57: the bytes fetched up to `State.atFault` are known for each shape of a fault, and a fetch of `n` bytes records
exactly their calls (`Fetched.events`). -/
theorem callsBeforeAFaultAreRecorded : Obligations.CallsBeforeAFaultAreRecorded := by
  intro s t f h
  obtain ⟨hstep, rfl⟩ := stepCall_faulted h
  refine ⟨State.latch_fault _ f, ?_⟩
  rw [State.latch_events]
  obtain ⟨-, ⟨r, hfetch⟩ | ⟨i, u, hfetch, hexec⟩⟩ := step_fault hstep
  · rw [State.atFault_of_fetchFault hfetch]
    obtain ⟨n, bytes, hbytes, hread⟩ | ⟨b, hopcode, hf⟩ | ⟨op, mode, b, hopcode, hf⟩ := fetchInstr_error hfetch
    · exact .inr (.inl ⟨n, bytes, r, hfetch, hbytes, hread, (fetchBytes_fetched hbytes).events⟩)
    · exact .inr (.inr ⟨b, r, hfetch, hopcode, .inl hf, fetchBytes_one_events hopcode⟩)
    · exact .inr (.inr ⟨b, r, hfetch, hopcode, .inr ⟨op, mode, hf⟩, fetchBytes_one_events hopcode⟩)
  · rw [State.atFault_of_fetch hfetch]
    exact .inl ⟨i, u, hfetch, hexec, (fetchInstr_fetched hfetch).events⟩

end Sys2Proof.Machine
end

section
/-! PROOFS. The host's calls (70_reset_and_hazards.md R260 to R263). A step on a machine that is ready is a fetch, then an execution,
so a step statement is one about the bytes fetched. What `reset()` can do is said once (`resetCall_next`); power-on is `reset()` on a
constructed machine, and a constructed machine that is launched meets the invariant (`State.inv_launch_constructed`). -/

namespace Sys2Proof.Machine

/-! ### The step -/

/-- Settles O6: the fetch of an instruction is the fetch of its bytes, and a fetch of `n` bytes advances `PC` by `n`. -/
theorem stepRunsTheDecodedInstruction : Obligations.StepRunsTheDecodedInstruction :=
  fun _ _ _ _ _ hs hbytes hd => ⟨(fetchBytes_fetched hbytes).pc, step_of_fetch hs (fetchInstr_of_decode hbytes hd)⟩

/-- The decoder reads the whole encoding of an instruction, and no more. -/
theorem decode_encode (i : Instr) : decode (encode i) = .instr i [] := by
  simpa only [List.append_nil] using decodeOfEncodeIsIdentity i []

/-- Settles O7: stored bytes are fetched as they stand, and those of an encoding decode to its instruction. -/
theorem stepRunsTheStoredInstruction : Obligations.StepRunsTheStoredInstruction :=
  fun s i hs hstored => step_of_fetch hs (fetchInstr_of_decode (fetchBytes_of_peek (encode i) s hstored) (decode_encode i))

/-! ### `reset()` -/

/-- Where the mark is set already, `reset()` writes `PC` alone (70_reset_and_hazards.md R261). -/
theorem State.launch_of_launched {s : State} (h : s.resetDone = true) (target : Word) : s.launch target = s.setPc target := by
  rw [State.launch, ← h, State.setPc]

/-- Settles O28: under the invariant the vector lies in the last program bank, and the mark that `reset()` sets is set. -/
theorem resetCallWritesPcOnly : Obligations.ResetCallWritesPcOnly := by
  intro s hs
  obtain ⟨hcount, -⟩ := hs.banks_lt
  exact (resetCall_of_slots hs.notFaulted hs.banksFixed hcount).trans
    (congrArg Host.Outcome.next (State.launch_of_launched hs.launched _))

theorem readWord_ok {s t : State} {a w : Word} (h : readWord a s = .ok (w, t)) :
    ∃ lo hi u, Reads s a lo u ∧ Reads u (a + 1) hi t ∧ w = wordOfBytes lo hi := by
  unfold readWord at h
  split at h
  · cases h
  rename_i lo u hlo
  split at h
  · cases h
  rename_i hi t' hhi
  cases h
  exact ⟨lo, hi, u, busRead_eq_ok.1 hlo, busRead_eq_ok.1 hhi, rfl⟩

/-- A read that completes leaves the latch (20_memory.md R63). -/
theorem Reads.fault {s t : State} {ea : Word} {v : Byte} (h : Reads s ea v t) : t.fault = s.fault := by
  rcases reads_state h with rfl | ⟨slot, rfl⟩ <;> rfl

/-- A `reset()` that completes found an empty latch, and launches what the read of the vector leaves (R261, R263). -/
theorem resetCall_next {s t : State} (h : resetCall s = .next t) :
    s.fault = none ∧ ∃ target u, readWord Config.resetVector s = .ok (target, u) ∧ t = u.launch target := by
  unfold resetCall at h
  split at h
  · cases h
  rename_i hlatch
  split at h
  · cases h
  rename_i target u hread
  cases h
  exact ⟨hlatch, target, u, hread, rfl⟩

theorem ready_of_resetCall {s t : State} (h : resetCall s = .next t) : t.Ready := by
  obtain ⟨hlatch, target, u, hread, rfl⟩ := resetCall_next h
  obtain ⟨lo, hi, w, hlo, hhi, -⟩ := readWord_ok hread
  exact ⟨hhi.fault.trans (hlo.fault.trans hlatch), State.launch_resetDone u target⟩

theorem stepCall_neverReset {s : State} (hf : s.fault = none) (h : s.resetDone = false) :
    stepCall s = .refused .neverReset := by
  simp only [stepCall, step_neverReset hf h]

/-- Settles O56: a constructed machine has an empty latch and no mark; `reset()` sets the mark and keeps the latch empty. -/
theorem machineNeverResetHasNoStep : Obligations.MachineNeverResetHasNoStep :=
  fun _ _ _ _ _ => ⟨step_neverReset rfl rfl, stepCall_neverReset rfl rfl,
    fun hf h => ⟨step_neverReset hf h, stepCall_neverReset hf h⟩, ready_of_resetCall⟩

/-! ### Power-on -/

/-- After a load the construction of the Bank-Switch Unit cannot fail: `load` has checked the mapper (20_memory.md R66, R75). -/
theorem BankSlots.construct_of_load {file : List Byte} {c : Cartridge} (h : Cartridge.load file = .ok c) :
    BankSlots.construct c.mapperId c.prgCount = .ok (.initial c.prgCount) := by
  obtain ⟨-, hmapper⟩ := Cartridge.load_ok h
  rw [BankSlots.construct, if_pos hmapper]

/-- Power-on with a cartridge that loads (70_reset_and_hazards.md R260): a cartridge with no program bank is refused, and with
one the machine is constructed and reset. -/
theorem powerOn_of_load {file : List Byte} {c : Cartridge} (h : Cartridge.load file = .ok c) (v : PowerOnValues) :
    powerOn file v = if c.prgCount = 0 then .ok (.refused .noProgramBank)
      else .ok (resetCall (.constructed c (.initial c.prgCount) v)) := by
  simp only [powerOn, h, BankSlots.construct_of_load h]

/-- `P_POWERON` as the byte of 10_state.md R44. -/
theorem Status.powerOn_toByte : Status.powerOn.toByte = 0x34 := by decide

theorem Status.powerOn_u : Status.powerOn.u = true := by decide

theorem Status.powerOn_i : Status.powerOn.i = true := by decide

/-- A machine constructed with a well-formed cartridge and canonical memories meets the invariant once it is launched. -/
theorem State.inv_launch_constructed {c : Cartridge} {v : PowerOnValues} (hc : c.wellFormed = true)
    (hram : v.ram.wf = true ∧ v.ram.within Config.ramSize = true)
    (hchr : v.chrRam.wf = true ∧ v.chrRam.within Config.chrRamSize = true) (target : Word) :
    ((State.constructed c (.initial c.prgCount) v).launch target).Inv where
  ramWf := hram.1
  ramWithin := hram.2
  chrRamOk := by
    intro m hm
    obtain ⟨-, rfl⟩ : c.chrCount = 0 ∧ v.chrRam = m := by
      simpa only [State.launch_chrRam, State.constructed, Option.ite_none_right_eq_some, Option.some.injEq] using hm
    exact hchr
  chrRamPresent := by
    simp only [State.launch_chrRam, State.launch_cart, State.constructed]
    split <;> simp [*]
  cartOk := hc
  banksFixed := rfl
  alwaysOne := Status.powerOn_u
  interruptDisable := Status.powerOn_i
  notFaulted := rfl
  launched := rfl

/-- Settles O27: with a program bank the launch state is the constructed machine, launched at the vector word. -/
theorem powerOnGivesALaunchState : Obligations.PowerOnGivesALaunchState := by
  intro file c v hload
  rw [powerOn_of_load hload]
  refine ⟨fun hnone => if_pos hnone, fun hcount hramWf hramWithin hchrWf hchrWithin => ?_⟩
  have hreset := resetCall_of_slots (s := .constructed c (.initial c.prgCount) v) rfl rfl hcount
  rw [if_neg (Nat.one_le_iff_ne_zero.1 hcount), hreset]
  exact ⟨_, rfl,
    State.inv_launch_constructed (Cartridge.wellFormed_of_load hload hcount) ⟨hramWf, hramWithin⟩ ⟨hchrWf, hchrWithin⟩ _,
    rfl, Status.powerOn_toByte, rfl, rfl, rfl, rfl, rfl, rfl, rfl, rfl, rfl, toNat_wordOfBytes _ _⟩

end Sys2Proof.Machine
end

section
/-! PROOFS. Words written out from the encodings (opcode_table.json, 95_test_vectors.md Part 2 and Part 3). Each is the encoding of
its instruction, a table word with zeros after it, so the round trip `decodeOfEncodeIsIdentity` decodes them. -/

namespace Sys2Proof

/-- The table-word decoder reads the instruction whose encoding its bytes begin with, whatever bytes follow. -/
theorem decodeTableWord_of_encode {nbits w : Nat} {i : Instr} (rest : List Byte)
    (h : tableBytes nbits w = encode i ++ rest) : decodeTableWord nbits w = some i := by
  rw [decodeTableWord, h, decodeOfEncodeIsIdentity]

/-- Settles O4: the bytes of each word are an encoding, and in a table word zeros that the encoding does not reach. -/
theorem sampleWordsDecode : Obligations.SampleWordsDecode :=
  ⟨Machine.decode_encode (.ldaImm 0xF0), Machine.decode_encode (.ldaAbs 0x1234), Machine.decode_encode (.ldxZpy 0xF0),
    Machine.decode_encode (.ldyAbx 0x1FFF), Machine.decode_encode (.staIzy 0x20), Machine.decode_encode (.stxAbs 0x07FF),
    Machine.decode_encode (.styZpx 0x10), Machine.decode_encode (.andIzx 0x40), Machine.decode_encode (.cmpAby 0x0300),
    Machine.decode_encode (.beq 0xFE), Machine.decode_encode .txs, Machine.decode_encode .cld, Machine.decode_encode .sei,
    decodeTableWord_of_encode [0] rfl, decodeTableWord_of_encode [] rfl, decodeTableWord_of_encode [0] rfl,
    decodeTableWord_of_encode [] rfl, decodeTableWord_of_encode [0] rfl, decodeTableWord_of_encode [] rfl,
    decodeTableWord_of_encode [0] rfl, decodeTableWord_of_encode [0] rfl, decodeTableWord_of_encode [] rfl,
    decodeTableWord_of_encode [0] rfl, decodeTableWord_of_encode [0, 0] rfl, decodeTableWord_of_encode [0, 0] rfl,
    decodeTableWord_of_encode [0, 0] rfl, decodeTableWord_of_encode [0] rfl⟩

end Sys2Proof
end
